-- ==== Sys2Proof/Word.lean ====
section
/-! DEFINITION. The word types of the CORE (spec/00_scope.md R7) and their plainest arithmetic. -/

namespace Sys2Proof

/-- A byte: general register, timer, memory cell, `nn` constant (R7, R50). -/
abbrev Byte := BitVec 8

/-- A 16-bit value: PC, I, stack entry, KEYS, instruction word (R7). -/
abbrev Word := BitVec 16

/-- A 12-bit address constant, the `nnn` field (R50). -/
abbrev Addr12 := BitVec 12

/-- A 4-bit count, the `n` field (R50). -/
abbrev Nibble := BitVec 4

/-- The number of a general register, V0..VF (spec/10_state.md R20). -/
abbrev Reg := Fin 16

/-- VF, the flag register (spec/10_state.md R21). -/
abbrev Reg.vF : Reg := 15

/-- V0, read implicitly by `Bnnn` (spec/10_state.md R20). -/
abbrev Reg.v0 : Reg := 0

/-- `u8(v)` of spec/00_scope.md R8: v mod 256. -/
abbrev u8 (v : Nat) : Byte := BitVec.ofNat 8 v

/-- `u16(v)` of spec/00_scope.md R8: v mod 65536. -/
abbrev u16 (v : Nat) : Word := BitVec.ofNat 16 v

end Sys2Proof
end

