-- ==== Sys2Proof/Syntax.lean ====
section
/-! DEFINITION. The instructions: one constructor per row of spec/opcode_table.json (spec/30_encoding.md R54, R55).
Operands are the fields decode examines; a field a row ignores (R57) is no operand. -/

namespace Sys2Proof

/-- The 34 instructions and the four NOP rows. -/
inductive Instr where
  /-- `0_E0` CLS (R94) -/
  | cls
  /-- `0_EE` RET (R63) -/
  | ret
  /-- `1nnn` JP nnn (R64) -/
  | jp (nnn : Addr12)
  /-- `2nnn` CALL nnn (R65) -/
  | call (nnn : Addr12)
  /-- `3xnn` SE Vx, nn (R66) -/
  | seImm (x : Reg) (nn : Byte)
  /-- `4xnn` SNE Vx, nn (R67) -/
  | sneImm (x : Reg) (nn : Byte)
  /-- `5xy_` SE Vx, Vy (R68) -/
  | seReg (x y : Reg)
  /-- `6xnn` LD Vx, nn (R73) -/
  | ldImm (x : Reg) (nn : Byte)
  /-- `7xnn` ADD Vx, nn (R74) -/
  | addImm (x : Reg) (nn : Byte)
  /-- `8xy0` LD Vx, Vy (R75) -/
  | ldReg (x y : Reg)
  /-- `8xy1` OR Vx, Vy (R76) -/
  | or (x y : Reg)
  /-- `8xy2` AND Vx, Vy (R77) -/
  | and (x y : Reg)
  /-- `8xy3` XOR Vx, Vy (R78) -/
  | xor (x y : Reg)
  /-- `8xy4` ADD Vx, Vy (R79) -/
  | addReg (x y : Reg)
  /-- `8xy5` SUB Vx, Vy (R80) -/
  | sub (x y : Reg)
  /-- `8xy6` SHR Vx (R81) -/
  | shr (x : Reg)
  /-- `8xy7` SUBN Vx, Vy (R82) -/
  | subn (x y : Reg)
  /-- `8xyE` SHL Vx (R83) -/
  | shl (x : Reg)
  /-- `9xy_` SNE Vx, Vy (R69) -/
  | sneReg (x y : Reg)
  /-- `Annn` LD I, nnn (R85) -/
  | ldI (nnn : Addr12)
  /-- `Bnnn` JP V0, nnn (R70) -/
  | jpV0 (nnn : Addr12)
  /-- `Cxnn` RND Vx, nn (R84) -/
  | rnd (x : Reg) (nn : Byte)
  /-- `Dxyn` DRW Vx, Vy, n (R95) -/
  | drw (x y : Reg) (n : Nibble)
  /-- `Ex9E` SKP Vx (R96) -/
  | skp (x : Reg)
  /-- `ExA1` SKNP Vx (R97) -/
  | sknp (x : Reg)
  /-- `Fx07` LD Vx, DT (R99) -/
  | ldVxDt (x : Reg)
  /-- `Fx0A` LD Vx, K (R102) -/
  | ldVxK (x : Reg)
  /-- `Fx15` LD DT, Vx (R100) -/
  | ldDtVx (x : Reg)
  /-- `Fx18` LD ST, Vx (R101) -/
  | ldStVx (x : Reg)
  /-- `Fx1E` ADD I, Vx (R86) -/
  | addI (x : Reg)
  /-- `Fx29` LD F, Vx (R87) -/
  | ldF (x : Reg)
  /-- `Fx33` LD B, Vx (R88) -/
  | ldB (x : Reg)
  /-- `Fx55` LD [I], Vx (R89) -/
  | storeRegs (x : Reg)
  /-- `Fx65` LD Vx, [I] (R90) -/
  | loadRegs (x : Reg)
  /-- NOP of class 0x0 (R55); `nn` is the unrecognised secondary code, which the NOP does not use -/
  | nop0 (nn : Byte)
  /-- NOP of class 0x8 (R55); `n` is the unrecognised secondary code -/
  | nop8 (n : Nibble)
  /-- NOP of class 0xE (R55); `nn` is the unrecognised secondary code -/
  | nopE (nn : Byte)
  /-- NOP of class 0xF (R55); `nn` is the unrecognised secondary code -/
  | nopF (nn : Byte)
deriving DecidableEq, Repr

end Sys2Proof
end

