-- ==== Sys2Proof/WellFormed.lean ====
section
/-! DEFINITION. Which terms of Instr are instructions: the fields have their widths by type, so the only
check is that a NOP's secondary code is one its class does not recognise (spec/30_encoding.md R55). -/

namespace Sys2Proof

/-- The secondary codes of class 0x0 that select an instruction (R53). -/
def knownCodes0 : List Byte := [0xE0, 0xEE]

/-- The secondary codes of class 0x8 that select an instruction (R53). -/
def knownCodes8 : List Nibble := [0x0, 0x1, 0x2, 0x3, 0x4, 0x5, 0x6, 0x7, 0xE]

/-- The secondary codes of class 0xE that select an instruction (R53). -/
def knownCodesE : List Byte := [0x9E, 0xA1]

/-- The secondary codes of class 0xF that select an instruction (R53). -/
def knownCodesF : List Byte := [0x07, 0x0A, 0x15, 0x18, 0x1E, 0x29, 0x33, 0x55, 0x65]

/-- A NOP's secondary code is unrecognised in its class (R55); every other term is well formed. -/
def Instr.wellFormed : Instr → Bool
  | .nop0 nn => !knownCodes0.contains nn
  | .nop8 n => !knownCodes8.contains n
  | .nopE nn => !knownCodesE.contains nn
  | .nopF nn => !knownCodesF.contains nn
  | .cls | .ret | .jp _ | .call _ | .seImm _ _ | .sneImm _ _ | .seReg _ _ | .ldImm _ _ | .addImm _ _ | .ldReg _ _
  | .or _ _ | .and _ _ | .xor _ _ | .addReg _ _ | .sub _ _ | .shr _ | .subn _ _ | .shl _ | .sneReg _ _ | .ldI _
  | .jpV0 _ | .rnd _ _ | .drw _ _ _ | .skp _ | .sknp _ | .ldVxDt _ | .ldVxK _ | .ldDtVx _ | .ldStVx _ | .addI _
  | .ldF _ | .ldB _ | .storeRegs _ | .loadRegs _ => true

end Sys2Proof
end

