-- ==== Sys2Proof/Decode.lean ====
section
/-! DEFINITION. Decode (spec/30_encoding.md R50, R53, R57), total on every word, and the encoder (R50, R54),
each written from the spec's field layout. -/

namespace Sys2Proof

/-- `header` = w[15:12] (R50). -/
def fieldHeader (w : Word) : BitVec 4 := w.extractLsb' 12 4

/-- `x` = w[11:8] as a register number (R50, R51). -/
def fieldX (w : Word) : Reg := (w.extractLsb' 8 4).toFin

/-- `y` = w[7:4] as a register number (R50, R51). -/
def fieldY (w : Word) : Reg := (w.extractLsb' 4 4).toFin

/-- `n` = w[3:0] (R50). -/
def fieldN (w : Word) : Nibble := w.extractLsb' 0 4

/-- `nn` = w[7:0] (R50). -/
def fieldNN (w : Word) : Byte := w.extractLsb' 0 8

/-- `nnn` = w[11:0] (R50). -/
def fieldNNN (w : Word) : Addr12 := w.extractLsb' 0 12

/-- Class 0x0, secondary key nn; x is not examined (R53, D11). -/
def decode0 (w : Word) : Instr :=
  if fieldNN w = 0xE0 then .cls
  else if fieldNN w = 0xEE then .ret
  else .nop0 (fieldNN w)

/-- Class 0x8, secondary key n (R53). -/
def decode8 (w : Word) : Instr :=
  if fieldN w = 0x0 then .ldReg (fieldX w) (fieldY w)
  else if fieldN w = 0x1 then .or (fieldX w) (fieldY w)
  else if fieldN w = 0x2 then .and (fieldX w) (fieldY w)
  else if fieldN w = 0x3 then .xor (fieldX w) (fieldY w)
  else if fieldN w = 0x4 then .addReg (fieldX w) (fieldY w)
  else if fieldN w = 0x5 then .sub (fieldX w) (fieldY w)
  else if fieldN w = 0x6 then .shr (fieldX w)
  else if fieldN w = 0x7 then .subn (fieldX w) (fieldY w)
  else if fieldN w = 0xE then .shl (fieldX w)
  else .nop8 (fieldN w)

/-- Class 0xE, secondary key nn (R53). -/
def decodeE (w : Word) : Instr :=
  if fieldNN w = 0x9E then .skp (fieldX w)
  else if fieldNN w = 0xA1 then .sknp (fieldX w)
  else .nopE (fieldNN w)

/-- Class 0xF, secondary key nn (R53). -/
def decodeF (w : Word) : Instr :=
  if fieldNN w = 0x07 then .ldVxDt (fieldX w)
  else if fieldNN w = 0x0A then .ldVxK (fieldX w)
  else if fieldNN w = 0x15 then .ldDtVx (fieldX w)
  else if fieldNN w = 0x18 then .ldStVx (fieldX w)
  else if fieldNN w = 0x1E then .addI (fieldX w)
  else if fieldNN w = 0x29 then .ldF (fieldX w)
  else if fieldNN w = 0x33 then .ldB (fieldX w)
  else if fieldNN w = 0x55 then .storeRegs (fieldX w)
  else if fieldNN w = 0x65 then .loadRegs (fieldX w)
  else .nopF (fieldNN w)

/-- `Decode(w)` of R53: every word names one instruction or a NOP. -/
def decode (w : Word) : Instr :=
  if fieldHeader w = 0x0 then decode0 w
  else if fieldHeader w = 0x1 then .jp (fieldNNN w)
  else if fieldHeader w = 0x2 then .call (fieldNNN w)
  else if fieldHeader w = 0x3 then .seImm (fieldX w) (fieldNN w)
  else if fieldHeader w = 0x4 then .sneImm (fieldX w) (fieldNN w)
  else if fieldHeader w = 0x5 then .seReg (fieldX w) (fieldY w)
  else if fieldHeader w = 0x6 then .ldImm (fieldX w) (fieldNN w)
  else if fieldHeader w = 0x7 then .addImm (fieldX w) (fieldNN w)
  else if fieldHeader w = 0x8 then decode8 w
  else if fieldHeader w = 0x9 then .sneReg (fieldX w) (fieldY w)
  else if fieldHeader w = 0xA then .ldI (fieldNNN w)
  else if fieldHeader w = 0xB then .jpV0 (fieldNNN w)
  else if fieldHeader w = 0xC then .rnd (fieldX w) (fieldNN w)
  else if fieldHeader w = 0xD then .drw (fieldX w) (fieldY w) (fieldN w)
  else if fieldHeader w = 0xE then decodeE w
  else decodeF w

/-- Why bytes are no instruction: the only reason is that a word needs two of them (R49). -/
inductive DecodeError where
  /-- Fewer than two bytes are left. -/
  | truncated
deriving DecidableEq, Repr

/-- The word of two bytes, the byte at the lower address in bits 15:8 (spec/20_memory.md R37). -/
def wordOfBytes (hi lo : Byte) : Word := hi ++ lo

/-- Decode the first instruction of a list of bytes and give back the rest (R49, R53). -/
def decodeBytes : List Byte → Except DecodeError (Instr × List Byte)
  | hi :: lo :: rest => .ok (decode (wordOfBytes hi lo), rest)
  | [_] | [] => .error .truncated

/-- A register number as a 4-bit field (R50). -/
def regField (r : Reg) : BitVec 4 := BitVec.ofFin r

/-- header ++ nnn (R50). -/
def packNNN (header : BitVec 4) (nnn : Addr12) : Word := header ++ nnn

/-- header ++ x ++ nn (R50). -/
def packXNN (header : BitVec 4) (x : Reg) (nn : Byte) : Word := header ++ (regField x ++ nn : BitVec 12)

/-- header ++ x ++ y ++ n (R50). -/
def packXYN (header : BitVec 4) (x y : Reg) (n : Nibble) : Word :=
  header ++ (regField x ++ (regField y ++ n : Byte) : BitVec 12)

/-- The canonical word of an instruction (R54, R57: "sets every ignored field to 0"). -/
def encode : Instr → Word
  | .cls => packXNN 0x0 0 0xE0
  | .ret => packXNN 0x0 0 0xEE
  | .jp nnn => packNNN 0x1 nnn
  | .call nnn => packNNN 0x2 nnn
  | .seImm x nn => packXNN 0x3 x nn
  | .sneImm x nn => packXNN 0x4 x nn
  | .seReg x y => packXYN 0x5 x y 0x0
  | .ldImm x nn => packXNN 0x6 x nn
  | .addImm x nn => packXNN 0x7 x nn
  | .ldReg x y => packXYN 0x8 x y 0x0
  | .or x y => packXYN 0x8 x y 0x1
  | .and x y => packXYN 0x8 x y 0x2
  | .xor x y => packXYN 0x8 x y 0x3
  | .addReg x y => packXYN 0x8 x y 0x4
  | .sub x y => packXYN 0x8 x y 0x5
  | .shr x => packXYN 0x8 x 0 0x6
  | .subn x y => packXYN 0x8 x y 0x7
  | .shl x => packXYN 0x8 x 0 0xE
  | .sneReg x y => packXYN 0x9 x y 0x0
  | .ldI nnn => packNNN 0xA nnn
  | .jpV0 nnn => packNNN 0xB nnn
  | .rnd x nn => packXNN 0xC x nn
  | .drw x y n => packXYN 0xD x y n
  | .skp x => packXNN 0xE x 0x9E
  | .sknp x => packXNN 0xE x 0xA1
  | .ldVxDt x => packXNN 0xF x 0x07
  | .ldVxK x => packXNN 0xF x 0x0A
  | .ldDtVx x => packXNN 0xF x 0x15
  | .ldStVx x => packXNN 0xF x 0x18
  | .addI x => packXNN 0xF x 0x1E
  | .ldF x => packXNN 0xF x 0x29
  | .ldB x => packXNN 0xF x 0x33
  | .storeRegs x => packXNN 0xF x 0x55
  | .loadRegs x => packXNN 0xF x 0x65
  | .nop0 nn => packXNN 0x0 0 nn
  | .nop8 n => packXYN 0x8 0 0 n
  | .nopE nn => packXNN 0xE 0 nn
  | .nopF nn => packXNN 0xF 0 nn

/-- The two bytes of a word in memory order, big-endian (spec/20_memory.md R37). -/
def bytesOfWord (w : Word) : Byte × Byte := (w.extractLsb' 8 8, w.extractLsb' 0 8)

/-- The word of an instruction whose table bits are the low `nbits` bits of `w`, the bits above being 0. -/
def tableWord (nbits w : Nat) : Word := BitVec.ofNat 16 (w % 2 ^ nbits)

/-- What the decoder reads from the bytes of an instruction given as the opcode table numbers its bits. -/
def decodeTableWord (nbits w : Nat) : Option Instr :=
  match decodeBytes [(bytesOfWord (tableWord nbits w)).1, (bytesOfWord (tableWord nbits w)).2] with
  | .ok (i, _) => some i
  | .error _ => none

end Sys2Proof
end

