-- ==== Sys2Proof/Config.lean ====
section
/-! DEFINITION. What an implementation fixes (spec/00_scope.md R6, at the values R6 takes for this hardware; log 1)
and the free values the spec leaves open (log 6, log 7). -/

namespace Sys2Proof.Config

/-- MEM_SIZE (R6). -/
abbrev memSize : Nat := 4096

/-- LOAD_ADDR (R6). -/
abbrev loadAddr : Word := 0x200

/-- FONT_BASE (R6). -/
abbrev fontBase : Nat := 0x050

/-- FONT_GLYPH_BYTES (R6). -/
abbrev fontGlyphBytes : Nat := 5

/-- STACK_DEPTH (R6). -/
abbrev stackDepth : Nat := 16

/-- FB_W (R6). -/
abbrev fbW : Nat := 64

/-- FB_H (R6). -/
abbrev fbH : Nat := 32

/-- FREE VALUE (log 6, safe): the random byte of the n-th draw since the model's draw counter was 0,
`Rand()` of R12: "an 8-bit value supplied to the step from outside, under no law". -/
opaque randByte : Nat → Byte

/-- FREE VALUE (log 7, safe): BATCH_SIZE less 1. -/
opaque batchSizeLessOne : Nat

/-- BATCH_SIZE (R6): OPEN, at least 1. -/
def batchSize : Nat := batchSizeLessOne + 1

end Sys2Proof.Config
end

