-- ==== Sys2Proof/Machine/State.lean ====
section
/-! DEFINITION. The state of the CORE (spec/10_state.md) with its inputs and outputs (spec/60_exceptions.md R115),
as plain data, the reasons a step can stop, and the state after reset. -/

namespace Sys2Proof.Machine

/-- The contents M of memory: (address, byte) pairs, canonical form `Memory.wf` (spec/10_state.md R30). -/
abbrev Memory := List Host.Cell

/-- The contents FB of the framebuffer, `FB[px][py]`: column first, then row (spec/10_state.md R31). -/
abbrev Framebuffer := Vector (Vector Bool Config.fbH) Config.fbW

/-- The kind of a memory access a fault records: fetch = 0, read = 1, write = 2 (spec/60_exceptions.md R104). -/
inductive AccessKind where
  /-- instruction fetch -/
  | fetch
  /-- data read: `Dxyn`, `Fx65` -/
  | read
  /-- data write: `Fx33`, `Fx55` -/
  | write
deriving DecidableEq, Repr

/-- The four faults with their recorded information (spec/60_exceptions.md R104). -/
inductive FaultCause where
  /-- code 1: a byte address not below MEM_SIZE; the lowest offending address (17 bits, R34) and the access kind -/
  | invalidMemoryAccess (addr : BitVec 17) (kind : AccessKind)
  /-- code 2: `2nnn` with the stack full; info = SP -/
  | stackOverflow (sp : Fin Config.stackDepth)
  /-- code 3: `00EE` with the stack empty; info = 0 -/
  | stackUnderflow
  /-- code 4: `Ex9E` or `ExA1` with Vx > 15; info = Vx -/
  | keyIndexOutOfRange (k : Byte)
deriving DecidableEq, Repr

/-- What the fault latch holds when it is not none: the cause with its information, and the address of the
instruction that faulted (spec/10_state.md R32). -/
structure FaultLatch where
  cause : FaultCause
  pc : Word
deriving DecidableEq, Repr

/-- Why a batch ended: `batch_reason` 0, 1, 2 (spec/60_exceptions.md R112, R115). -/
inductive BatchReason where
  /-- BATCH_SIZE steps were done -/
  | done
  /-- a key-wait found no key -/
  | waiting
  /-- a step faulted, or the CORE was already faulted -/
  | faulted
deriving DecidableEq, Repr

/-- The result of the last batch, as its output ports hold it (spec/60_exceptions.md R112, R115; log 14). -/
structure BatchPorts where
  /-- `batch_reason` -/
  reason : BatchReason
  /-- steps_done, which the port `batch_steps` shows in 16 bits -/
  steps : Nat
  /-- `batch_done`: a batch has finished and this is its result -/
  finished : Bool
deriving DecidableEq, Repr

/-- What the host may do between any two instruction steps, inside a batch too (spec/60_exceptions.md R114, R121). -/
inductive HostEvent where
  /-- one timer tick (R110) -/
  | tick
  /-- refresh the key state (R119) -/
  | setKeys (k : Word)
  /-- read the framebuffer to present it (R118); no effect on the CORE -/
  | present
  /-- reset (spec/70_reset_and_hazards.md R125) -/
  | reset
deriving DecidableEq, Repr

/-- One move of the host (spec/60_exceptions.md R112, R114, R121; log 5). -/
inductive HostMove where
  /-- let the CORE take one instruction step -/
  | run
  /-- an event outside a batch -/
  | event (e : HostEvent)
  /-- one whole batch (R112); the k-th entry of `between` (from 0) is what the host does between steps k + 1 and k + 2
  of it, entries past the list are empty (log 15) -/
  | runBatch (between : List (List HostEvent))
deriving DecidableEq, Repr

/-- The machine's state. The first ten fields are the spec's State record (spec/10_state.md); `keys` is the spec's
input; `presentRequests` and `batch` are outputs of R115; `randDraws` and `hostMoves` are the model's own. -/
structure State where
  /-- V0..VF, R20 -/
  v : Vector Byte 16
  /-- I, R23 -/
  i : Word
  /-- PC, the address of the current instruction, R24 -/
  pc : Word
  /-- SP, the index of the top entry, 0 for the empty stack, R26 -/
  sp : Fin Config.stackDepth
  /-- S[0..STACK_DEPTH-1], R25 -/
  stack : Vector Word Config.stackDepth
  /-- DT, R28 -/
  dt : Byte
  /-- ST, R28 -/
  st : Byte
  /-- FAULT, R32 -/
  fault : Option FaultLatch
  /-- M, R30 -/
  mem : Memory
  /-- FB, R31 -/
  fb : Framebuffer
  /-- KEYS, the level the host presents, R29 -/
  keys : Word
  /-- how many times `present_req` was raised, R118 (log 13) -/
  presentRequests : Nat
  /-- the result of the last batch, R112 (log 14) -/
  batch : BatchPorts
  /-- how many random bytes were drawn: the index of the free value `Config.randByte` (log 6) -/
  randDraws : Nat
  /-- the host's coming moves, the next one first; none left: the CORE runs on (log 5) -/
  hostMoves : List HostMove
deriving DecidableEq, Repr

/-- Why a step ends with no next state. -/
inductive Fault where
  /-- Raised by `step` alone, when the fault latch is set and the host has no move left: "While it is not `none`
  the CORE takes no instruction step" (spec/10_state.md R32, spec/60_exceptions.md R105). Safe: the machine does
  stand still there, and the instruction that faulted has already given a next state with the latch set (log 8). -/
  | halted (latch : FaultLatch)
deriving DecidableEq, Repr

/-- Why the model gives an instruction no meaning. -/
inductive Refusal where
  /-- An arm of `exec` whose instruction has no meaning yet; no arm does this. Safe: nothing is proved of it. -/
  | notModelled (mnemonic : String)
deriving DecidableEq, Repr

/-- What a step or a meaning answers. -/
abbrev Result := Host.Outcome State Fault Refusal

/-- What a byte of memory that the list does not hold reads as: 0 (DESIGN CHOICE, log 2, unsafe for claims about
the memory of `State.reset`). -/
def Memory.unlisted : Byte := 0

/-- The machine right after reset (spec/10_state.md R35). M and FB are the host's launch contents, here nothing
listed (log 2) and all 0 (log 3); KEYS is 0 (log 4); the model's own fields and the output ports are at
their log entries' values (logs 5, 6, 13, 14). -/
def State.reset : State where
  v := Vector.replicate 16 0
  i := 0
  pc := Config.loadAddr
  sp := 0
  stack := Vector.replicate Config.stackDepth 0
  dt := 0
  st := 0
  fault := none
  mem := []
  fb := Vector.replicate Config.fbW (Vector.replicate Config.fbH false)
  keys := 0
  presentRequests := 0
  batch := BatchPorts.mk .done 0 false
  randDraws := 0
  hostMoves := []

end Sys2Proof.Machine
end

