-- ==== Sys2Proof/Machine/Ops.lean ====
section
/-! DEFINITION. The named operations over registers, memory, the stack, the framebuffer, the program counter and the
fault latch. Every meaning goes through them. -/

namespace Sys2Proof.Machine

/-! ### General registers -/

/-- `V[r]` (spec/00_scope.md R9). -/
def State.getV (s : State) (r : Reg) : Byte := s.v[r.val]

/-- `V[r] <- b` (spec/00_scope.md R9); no register is hardwired (spec/10_state.md R20). -/
def State.setV (s : State) (r : Reg) (b : Byte) : State := { s with v := s.v.set r.val b }

/-- `I <- a` (spec/10_state.md R23). -/
def State.setI (s : State) (a : Word) : State := { s with i := a }

/-- `DT <- b` (spec/10_state.md R28). -/
def State.setDT (s : State) (b : Byte) : State := { s with dt := b }

/-- `ST <- b` (spec/10_state.md R28). -/
def State.setST (s : State) (b : Byte) : State := { s with st := b }

/-! ### Program counter (spec/30_encoding.md R58) -/

/-- An explicit PC set. -/
def State.setPC (s : State) (a : Word) : State := { s with pc := a }

/-- The default advance, `PC <- u16(PC + 2)`. -/
def State.advance (s : State) : State := s.setPC (s.pc + 2)

/-- The end of a skip instruction: `PC <- u16(PC + 4)` when the condition holds, else the default advance
(spec/40_flow.md R62). -/
def State.skipIf (s : State) (c : Bool) : State := if c then s.setPC (s.pc + 4) else s.advance

/-! ### Memory (spec/20_memory.md) -/

/-- The byte `M[a]`. -/
def Memory.read : Memory → Nat → Byte
  | [], _ => Memory.unlisted
  | (k, b) :: rest, a => if k = a then b else Memory.read rest a

/-- List byte `b` at address `a`, in address order. -/
def Memory.insert : Memory → Nat → Byte → Memory
  | [], a, b => [(a, b)]
  | (k, c) :: rest, a, b =>
    if a < k then (a, b) :: (k, c) :: rest
    else if a = k then (a, b) :: rest
    else (k, c) :: Memory.insert rest a b

/-- Unlist address `a`. -/
def Memory.erase : Memory → Nat → Memory
  | [], _ => []
  | (k, c) :: rest, a => if k = a then rest else (k, c) :: Memory.erase rest a

/-- `M[a] <- b`, keeping the canonical form: the value an unlisted address reads as is not listed. -/
def Memory.write (m : Memory) (a : Nat) (b : Byte) : Memory :=
  if b = Memory.unlisted then m.erase a else m.insert a b

/-- Store bytes at `a`, `a + 1`, ... in order. -/
def Memory.writeBytes : Memory → Nat → List Byte → Memory
  | m, _, [] => m
  | m, a, b :: rest => Memory.writeBytes (m.write a b) (a + 1) rest

/-- The bytes at `a`, ..., `a + n - 1`. -/
def Memory.readBytes (m : Memory) (a : Nat) : Nat → List Byte
  | 0 => []
  | n + 1 => m.read a :: Memory.readBytes m (a + 1) n

/-- The canonical form: addresses strictly rising, no listed byte equal to what an unlisted address reads as, every
address below MEM_SIZE. -/
abbrev Memory.wf (m : Memory) : Prop :=
  m.Pairwise (fun c d => c.1 < d.1) ∧ ∀ c ∈ m, c.2 ≠ Memory.unlisted ∧ c.1 < Config.memSize

/-- Store bytes from `a` on in the state's memory. -/
def State.storeBytes (s : State) (a : Nat) (bytes : List Byte) : State := { s with mem := s.mem.writeBytes a bytes }

/-! ### Faults (spec/60_exceptions.md) -/

/-- The bounds check of an access of `n` bytes from `base` (natural numbers, no wrap): when one of them is not
below MEM_SIZE, InvalidMemoryAccess with the lowest such address (spec/20_memory.md R40; spec/42_index_memory.md
R88 for `max`). -/
def rangeFault (base n : Nat) (kind : AccessKind) : Option FaultCause :=
  if 0 < n ∧ Config.memSize < base + n then
    some (.invalidMemoryAccess (BitVec.ofNat 17 (max base Config.memSize)) kind)
  else none

/-- FAULT ENTRY, the one operation that takes a fault (R105): `FAULT <- (F, info, PC)`, nothing else. The latch
has no return operation: only reset clears it (R107). -/
def State.raise (s : State) (c : FaultCause) : State := { s with fault := some (FaultLatch.mk c s.pc) }

/-- The check-first shape of an instruction that can fault (spec/30_encoding.md R59): raise what the check found,
else go on. -/
def State.orRaise (s : State) (check : Option FaultCause) (s' : State) : State :=
  match check with
  | some c => s.raise c
  | none => s'

/-- The fault code of R104: 1 to 4. -/
def FaultCause.code : FaultCause → BitVec 3
  | .invalidMemoryAccess _ _ => 1
  | .stackOverflow _ => 2
  | .stackUnderflow => 3
  | .keyIndexOutOfRange _ => 4

/-- The info word of R104, 17 bits as in spec/10_state.md R34. -/
def FaultCause.info : FaultCause → BitVec 17
  | .invalidMemoryAccess a _ => a
  | .stackOverflow sp => BitVec.ofNat 17 sp.val
  | .stackUnderflow => 0
  | .keyIndexOutOfRange k => k.setWidth 17

/-- The encoding of an access kind (R104). -/
def AccessKind.code : AccessKind → BitVec 2
  | .fetch => 0
  | .read => 1
  | .write => 2

/-- The access kind a fault records: code 1 only (spec/10_state.md R34). -/
def FaultCause.kind : FaultCause → Option AccessKind
  | .invalidMemoryAccess _ k => some k
  | .stackOverflow _ | .stackUnderflow | .keyIndexOutOfRange _ => none

/-! ### Return-address stack (spec/10_state.md R25-R27) -/

/-- The entry `S[SP]`. -/
def State.top (s : State) : Word := s.stack[s.sp.val]

/-- The check of `2nnn`: StackOverflow, info SP, when SP = STACK_DEPTH - 1 (spec/40_flow.md R65). -/
def State.overflowFault (s : State) : Option FaultCause :=
  if s.sp.val + 1 = Config.stackDepth then some (.stackOverflow s.sp) else none

/-- The check of `00EE`: StackUnderflow when SP = 0 (spec/40_flow.md R63). -/
def State.underflowFault (s : State) : Option FaultCause :=
  if s.sp.val = 0 then some .stackUnderflow else none

/-- Push, under its check: `SP <- sp + 1; S[sp + 1] <- a` (spec/40_flow.md R65). -/
def State.push (s : State) (a : Word) : State :=
  { s with sp := s.sp + 1, stack := s.stack.set (s.sp + 1).val a }

/-- Pop, under its check: `SP <- sp - 1`; the entry keeps its value (spec/40_flow.md R63, R27). -/
def State.pop (s : State) : State := { s with sp := s.sp - 1 }

/-! ### Framebuffer (spec/10_state.md R31, spec/60_exceptions.md R117) -/

/-- `getPixel(px, py)`. -/
def Framebuffer.get (fb : Framebuffer) (px : Fin Config.fbW) (py : Fin Config.fbH) : Bool := (fb[px.val])[py.val]

/-- `setPixel(px, py, bit)`. -/
def Framebuffer.set (fb : Framebuffer) (px : Fin Config.fbW) (py : Fin Config.fbH) (bit : Bool) : Framebuffer :=
  Vector.set fb px.val ((fb[px.val]).set py.val bit)

/-- `clear()`: every pixel 0. -/
def Framebuffer.clear : Framebuffer := Vector.replicate Config.fbW (Vector.replicate Config.fbH false)

/-- Replace the framebuffer's contents. -/
def State.setFB (s : State) (fb : Framebuffer) : State := { s with fb := fb }

/-- One present request (R118). -/
def State.requestPresent (s : State) : State := { s with presentRequests := s.presentRequests + 1 }

/-! ### Random input (spec/41_alu.md R84) -/

/-- The random byte of this draw: a free value (log 6). -/
def State.rand (s : State) : Byte := Config.randByte s.randDraws

/-- One draw has been made. -/
def State.drawn (s : State) : State := { s with randDraws := s.randDraws + 1 }

end Sys2Proof.Machine
end

