-- ==== Sys2Proof/Machine/Operands.lean ====
section
/-! DEFINITION. The operand forms (spec/30_encoding.md R51) and the addresses they name. A meaning reads all of them
from the state at the start of the instruction (spec/00_scope.md R13). -/

namespace Sys2Proof.Machine

/-- `zext_16(nnn)` (R51). -/
def zextAddr (nnn : Addr12) : Word := nnn.setWidth 16

/-- The target of `Bnnn`: `zext_16(nnn) + zext_16(V0)` (spec/40_flow.md R70). -/
def offsetTarget (nnn : Addr12) (v0 : Byte) : Word := zextAddr nnn + v0.setWidth 16

/-- `u16(i + a)`, the sum of `Fx1E` (spec/42_index_memory.md R86). -/
def indexSum (i : Word) (a : Byte) : Word := u16 (i.toNat + a.toNat)

/-- `u16(FONT_BASE + 5 * a)`; a is not masked (spec/42_index_memory.md R87). -/
def glyphAddr (a : Byte) : Word := u16 (Config.fontBase + Config.fontGlyphBytes * a.toNat)

/-- The decimal digits of a byte, hundreds, tens, ones (spec/42_index_memory.md R88). -/
def decimalDigits (v : Byte) : List Byte := [u8 (v.toNat / 100), u8 (v.toNat / 10 % 10), u8 (v.toNat % 10)]

/-- The values V0, ..., Vx, for the block store (spec/42_index_memory.md R89). -/
def State.regBlock (s : State) (x : Reg) : List Byte := s.v.toList.take (x.val + 1)

/-- `V[k] <- M[i + k]` for k in 0 .. x, the other registers kept (spec/42_index_memory.md R90). -/
def State.loadBlock (s : State) (x : Reg) (i : Nat) : State :=
  { s with v := Vector.ofFn (fun k : Reg => if k.val ≤ x.val then s.mem.read (i + k.val) else s.getV k) }

/-- Whether key k is pressed: bit k of KEYS (spec/10_state.md R29). -/
def State.keyDown (s : State) (k : Nat) : Bool := s.keys.getLsbD k

/-- The key-index check of `Ex9E` and `ExA1` (spec/44_keys_timers.md R96, R97). -/
def keyIndexFault (k : Byte) : Option FaultCause :=
  if 15 < k.toNat then some (.keyIndexOutOfRange k) else none

/-- The lowest set bit of a key state, if any (spec/44_keys_timers.md R102): `min { k | keys[k] = 1 }`. -/
def lowestKey (keys : Word) : Option Nat := (List.range 16).find? (fun k => keys.getLsbD k)

/-- The column a pixel at offset k from origin ox goes to: `(ox + k) mod FB_W` (spec/43_sprite.md R92). -/
def wrapColumn (c : Nat) : Fin Config.fbW := Fin.ofNat Config.fbW c

/-- The row a sprite row goes to: `(oy + r) mod FB_H` (spec/43_sprite.md R92). -/
def wrapRow (r : Nat) : Fin Config.fbH := Fin.ofNat Config.fbH r

end Sys2Proof.Machine
end

