-- ==== Sys2Proof/Machine/Flags.lean ====
section
/-! DEFINITION. The 8-bit results and the flag computations (spec/41_alu.md R71, R72). Results are computed on natural
numbers and narrowed once by `u8`; flags are computed from the operands before any write. -/

namespace Sys2Proof.Machine

/-- A flag as VF holds it: 1 or 0 (spec/10_state.md R34). -/
def flagByte (f : Bool) : Byte := if f then 1 else 0

/-- `u8(a + b)`. -/
def add8 (a b : Byte) : Byte := u8 (a.toNat + b.toNat)

/-- `u8(a - b + 256)`. -/
def sub8 (a b : Byte) : Byte := u8 (a.toNat + 256 - b.toNat)

/-- Carry of an addition: `a + b > 255`. -/
def carryFlag (a b : Byte) : Bool := decide (255 < a.toNat + b.toNat)

/-- The flag of `8xy5` for `a - b`, and of `8xy7` for `b - a`: strictly greater (R80, R82). -/
def greaterFlag (a b : Byte) : Bool := decide (b.toNat < a.toNat)

/-- `a >> 1`, bit 7 becomes 0 (R81). -/
def shr8 (a : Byte) : Byte := a >>> 1

/-- `u8(a << 1)`, bit 0 becomes 0 (R83). -/
def shl8 (a : Byte) : Byte := a <<< 1

/-- The bit `8xy6` shifts out: old bit 0. -/
def lsbFlag (a : Byte) : Bool := a.getLsbD 0

/-- The bit `8xyE` shifts out: old bit 7. -/
def msbFlag (a : Byte) : Bool := a.getLsbD 7

/-- `V[x] <- result; VF <- flag`, in this order, so that x = F ends with the flag (R72). -/
def State.setResultAndFlag (s : State) (x : Reg) (result : Byte) (flag : Bool) : State :=
  (s.setV x result).setV Reg.vF (flagByte flag)

end Sys2Proof.Machine
end

