-- ==== Sys2Proof/Machine/Alu.lean ====
section
/-! DEFINITION. The meanings of the register loads, arithmetic and logic (spec/41_alu.md). Each ends with the default
advance. -/

namespace Sys2Proof.Machine

/-- `6xnn` LD Vx, nn (R73). -/
def execLdImm (x : Reg) (nn : Byte) (s : State) : Result := .next (s.setV x nn).advance

/-- `7xnn` ADD Vx, nn (R74): no flag. -/
def execAddImm (x : Reg) (nn : Byte) (s : State) : Result := .next (s.setV x (add8 (s.getV x) nn)).advance

/-- `8xy0` LD Vx, Vy (R75). -/
def execLdReg (x y : Reg) (s : State) : Result := .next (s.setV x (s.getV y)).advance

/-- `8xy1` OR Vx, Vy (R76): VF not written. -/
def execOr (x y : Reg) (s : State) : Result := .next (s.setV x (s.getV x ||| s.getV y)).advance

/-- `8xy2` AND Vx, Vy (R77): VF not written. -/
def execAnd (x y : Reg) (s : State) : Result := .next (s.setV x (s.getV x &&& s.getV y)).advance

/-- `8xy3` XOR Vx, Vy (R78): VF not written. -/
def execXor (x y : Reg) (s : State) : Result := .next (s.setV x (s.getV x ^^^ s.getV y)).advance

/-- `8xy4` ADD Vx, Vy (R79). -/
def execAddReg (x y : Reg) (s : State) : Result :=
  .next (s.setResultAndFlag x (add8 (s.getV x) (s.getV y)) (carryFlag (s.getV x) (s.getV y))).advance

/-- `8xy5` SUB Vx, Vy (R80). -/
def execSub (x y : Reg) (s : State) : Result :=
  .next (s.setResultAndFlag x (sub8 (s.getV x) (s.getV y)) (greaterFlag (s.getV x) (s.getV y))).advance

/-- `8xy6` SHR Vx (R81): y is ignored. -/
def execShr (x : Reg) (s : State) : Result :=
  .next (s.setResultAndFlag x (shr8 (s.getV x)) (lsbFlag (s.getV x))).advance

/-- `8xy7` SUBN Vx, Vy (R82). -/
def execSubn (x y : Reg) (s : State) : Result :=
  .next (s.setResultAndFlag x (sub8 (s.getV y) (s.getV x)) (greaterFlag (s.getV y) (s.getV x))).advance

/-- `8xyE` SHL Vx (R83): y is ignored. -/
def execShl (x : Reg) (s : State) : Result :=
  .next (s.setResultAndFlag x (shl8 (s.getV x)) (msbFlag (s.getV x))).advance

/-- `Cxnn` RND Vx, nn (R84): one draw of the free random byte (log 6). -/
def execRnd (x : Reg) (nn : Byte) (s : State) : Result := .next ((s.setV x (s.rand &&& nn)).drawn).advance

end Sys2Proof.Machine
end

