-- ==== Sys2Proof/Machine/Flow.lean ====
section
/-! DEFINITION. The meanings of the control-flow instructions (spec/40_flow.md) and of NOP (spec/30_encoding.md R55). -/

namespace Sys2Proof.Machine

/-- `00EE` RET (R63): `PC <- S[sp]; SP <- sp - 1`, or StackUnderflow. -/
def execRet (s : State) : Result := .next (s.orRaise s.underflowFault (s.pop.setPC s.top))

/-- `1nnn` JP nnn (R64). -/
def execJp (nnn : Addr12) (s : State) : Result := .next (s.setPC (zextAddr nnn))

/-- `2nnn` CALL nnn (R65): push `u16(PC + 2)` and jump, or StackOverflow. -/
def execCall (nnn : Addr12) (s : State) : Result :=
  .next (s.orRaise s.overflowFault ((s.push (s.pc + 2)).setPC (zextAddr nnn)))

/-- `3xnn` SE Vx, nn (R66). -/
def execSeImm (x : Reg) (nn : Byte) (s : State) : Result := .next (s.skipIf (s.getV x == nn))

/-- `4xnn` SNE Vx, nn (R67). -/
def execSneImm (x : Reg) (nn : Byte) (s : State) : Result := .next (s.skipIf (s.getV x != nn))

/-- `5xy0` SE Vx, Vy (R68). -/
def execSeReg (x y : Reg) (s : State) : Result := .next (s.skipIf (s.getV x == s.getV y))

/-- `9xy0` SNE Vx, Vy (R69). -/
def execSneReg (x y : Reg) (s : State) : Result := .next (s.skipIf (s.getV x != s.getV y))

/-- `Bnnn` JP V0, nnn (R70). -/
def execJpV0 (nnn : Addr12) (s : State) : Result := .next (s.setPC (offsetTarget nnn (s.getV Reg.v0)))

/-- NOP of class 0x0 (R55): only the default advance. -/
def execNop0 (_nn : Byte) (s : State) : Result := .next s.advance

/-- NOP of class 0x8 (R55): only the default advance. -/
def execNop8 (_n : Nibble) (s : State) : Result := .next s.advance

/-- NOP of class 0xE (R55): only the default advance. -/
def execNopE (_nn : Byte) (s : State) : Result := .next s.advance

/-- NOP of class 0xF (R55): only the default advance. -/
def execNopF (_nn : Byte) (s : State) : Result := .next s.advance

end Sys2Proof.Machine
end

