-- ==== Sys2Proof/Machine/IndexMemory.lean ====
section
/-! DEFINITION. The meanings of the index-register, BCD and register-block instructions (spec/42_index_memory.md). -/

namespace Sys2Proof.Machine

/-- `Annn` LD I, nnn (R85). -/
def execLdI (nnn : Addr12) (s : State) : Result := .next (s.setI (zextAddr nnn)).advance

/-- `Fx1E` ADD I, Vx (R86): VF not written. -/
def execAddI (x : Reg) (s : State) : Result := .next (s.setI (indexSum s.i (s.getV x))).advance

/-- `Fx29` LD F, Vx (R87). -/
def execLdF (x : Reg) (s : State) : Result := .next (s.setI (glyphAddr (s.getV x))).advance

/-- `Fx33` LD B, Vx (R88). -/
def execLdB (x : Reg) (s : State) : Result :=
  .next (s.orRaise (rangeFault s.i.toNat 3 .write) (s.storeBytes s.i.toNat (decimalDigits (s.getV x))).advance)

/-- `Fx55` LD [I], Vx (R89): I unchanged. -/
def execStoreRegs (x : Reg) (s : State) : Result :=
  .next (s.orRaise (rangeFault s.i.toNat (x.val + 1) .write) (s.storeBytes s.i.toNat (s.regBlock x)).advance)

/-- `Fx65` LD Vx, [I] (R90): I unchanged. -/
def execLoadRegs (x : Reg) (s : State) : Result :=
  .next (s.orRaise (rangeFault s.i.toNat (x.val + 1) .read) (s.loadBlock x s.i.toNat).advance)

end Sys2Proof.Machine
end

