-- ==== Sys2Proof/Machine/KeysTimers.lean ====
section
/-! DEFINITION. The meanings of the key skips, the timer access and the key-wait (spec/44_keys_timers.md). -/

namespace Sys2Proof.Machine

/-- `Ex9E` SKP Vx (R96). -/
def execSkp (x : Reg) (s : State) : Result :=
  .next (s.orRaise (keyIndexFault (s.getV x)) (s.skipIf (s.keyDown (s.getV x).toNat)))

/-- `ExA1` SKNP Vx (R97). -/
def execSknp (x : Reg) (s : State) : Result :=
  .next (s.orRaise (keyIndexFault (s.getV x)) (s.skipIf (!s.keyDown (s.getV x).toNat)))

/-- `Fx07` LD Vx, DT (R99). -/
def execLdVxDt (x : Reg) (s : State) : Result := .next (s.setV x s.dt).advance

/-- `Fx15` LD DT, Vx (R100). -/
def execLdDtVx (x : Reg) (s : State) : Result := .next (s.setDT (s.getV x)).advance

/-- `Fx18` LD ST, Vx (R101). -/
def execLdStVx (x : Reg) (s : State) : Result := .next (s.setST (s.getV x)).advance

/-- `Fx0A` LD Vx, K (R102): the lowest pressed key into Vx; with no key pressed the outcome Wait, which changes
nothing, so that the next step fetches the same instruction (log 9). -/
def execLdVxK (x : Reg) (s : State) : Result :=
  match lowestKey s.keys with
  | some k => .next (s.setV x (u8 k)).advance
  | none => .next s

end Sys2Proof.Machine
end

