-- ==== Sys2Proof/Machine/Sprite.lean ====
section
/-! DEFINITION. The framebuffer clear and the sprite compositor (spec/43_sprite.md). -/

namespace Sys2Proof.Machine

/-- XOR a 1 into pixel (px, py) of the framebuffer, and note a collision if it was 1 (R93). -/
def blitPixel (px : Fin Config.fbW) (py : Fin Config.fbH) (d : Framebuffer × Bool) : Framebuffer × Bool :=
  (Framebuffer.set d.1 px py (!Framebuffer.get d.1 px py), d.2 || Framebuffer.get d.1 px py)

/-- The pixels of one sprite row from offset k on, `left` of them: bit 7 - k of the row byte is the pixel at offset k,
bit 7 leftmost (R91, D14); a 0 bit leaves the framebuffer alone. -/
def blitRowFrom (ox : Nat) (py : Fin Config.fbH) (row : Byte) (k : Nat) :
    Nat → Framebuffer × Bool → Framebuffer × Bool
  | 0, d => d
  | left + 1, d =>
    blitRowFrom ox py row (k + 1) left (if row.getLsbD (7 - k) then blitPixel (wrapColumn (ox + k)) py d else d)

/-- The rows of a sprite from row `oy` on, each 8 pixels wide, with per-pixel wraparound (R92, R93). -/
def blitRows (ox : Nat) : Nat → List Byte → Framebuffer × Bool → Framebuffer × Bool
  | _, [], d => d
  | oy, row :: rest, d => blitRows ox (oy + 1) rest (blitRowFrom ox (wrapRow oy) row 0 8 d)

/-- Blit rows at origin (ox, oy) into the state's framebuffer, then `VF <- c`, then the present request (R95). -/
def State.drawSprite (s : State) (ox oy : Nat) (rows : List Byte) : State :=
  let d := blitRows ox oy rows (s.fb, false)
  ((s.setFB d.1).setV Reg.vF (flagByte d.2)).requestPresent

/-- `00E0` CLS (R94): VF not written, no present request. -/
def execCls (s : State) : Result := .next (s.setFB Framebuffer.clear).advance

/-- `Dxyn` DRW Vx, Vy, n (R95). -/
def execDrw (x y : Reg) (n : Nibble) (s : State) : Result :=
  .next (s.orRaise (rangeFault s.i.toNat n.toNat .read)
    (s.drawSprite (s.getV x).toNat (s.getV y).toNat (s.mem.readBytes s.i.toNat n.toNat)).advance)

end Sys2Proof.Machine
end

