-- ==== Sys2Proof/Machine/Cycle.lean ====
section
/-! DEFINITION. The instruction step (spec/30_encoding.md R52, R59), the batch (spec/60_exceptions.md R112, R113), the
timer tick (R110), reset (spec/70_reset_and_hazards.md R125) and the other moves of the host (R114). -/

namespace Sys2Proof.Machine

/-! ### One instruction step -/

/-- The fetch check (R52): both bytes below MEM_SIZE. -/
def State.fetchFault (s : State) : Option FaultCause := rangeFault s.pc.toNat 2 .fetch

/-- The word at PC, big-endian (R52, spec/20_memory.md R37). -/
def State.fetchWord (s : State) : Word := wordOfBytes (s.mem.read s.pc.toNat) (s.mem.read (s.pc.toNat + 1))

/-- `Step` of R59: a faulted CORE has no step; else fetch, decode and execute. A fault taken, by the fetch or by the
instruction, is a next state with the latch set (R105, log 9). -/
def instrStep (s : State) : Result :=
  match s.fault with
  | some f => .fault (.halted f)
  | none =>
    match s.fetchFault with
    | some c => .next (s.raise c)
    | none => exec (decode s.fetchWord) s

/-- Whether the coming instruction step has the outcome Wait (spec/44_keys_timers.md R102): the word at PC is `Fx0A`
and no key is pressed. -/
def State.waits (s : State) : Bool :=
  match s.fault, s.fetchFault, decode s.fetchWord with
  | none, none, .ldVxK _ => s.keys == 0
  | _, _, _ => false

/-! ### Timers -/

/-- A counter's tick: one less, never below 0 (R110). -/
def countDown (b : Byte) : Byte := if b = 0 then 0 else b - 1

/-- `Tick()` of R110: it changes DT and ST only. -/
def State.tick (s : State) : State := { s with dt := countDown s.dt, st := countDown s.st }

/-! ### Reset and the host's events -/

/-- `Reset()` of R125: M, FB and the inputs are not changed, nor the output ports and the model's own fields
(logs 5, 6, 13, 14). -/
def State.hostReset (s : State) : State :=
  { s with
    v := Vector.replicate 16 0
    i := 0
    pc := Config.loadAddr
    sp := 0
    stack := Vector.replicate Config.stackDepth 0
    dt := 0
    st := 0
    fault := none }

/-- One event of the host (R114). -/
def State.hostEvent (e : HostEvent) (s : State) : State :=
  match e with
  | .tick => s.tick
  | .setKeys k => { s with keys := k }
  | .present => s
  | .reset => s.hostReset

/-- Events of the host, in order. -/
def State.hostEvents (s : State) : List HostEvent → State
  | [] => s
  | e :: rest => State.hostEvents (s.hostEvent e) rest

/-! ### A batch -/

/-- A batch with `left` steps to go and `done` steps counted, `before` holding the host's events before each of them
(R112, R114): a Wait or a Fault ends it and is not counted. -/
def batchFrom : Nat → List (List HostEvent) → Nat → State → State × BatchPorts
  | 0, _, done, s => (s, BatchPorts.mk .done done true)
  | left + 1, before, done, s =>
    let u := s.hostEvents (before.headD [])
    if u.waits then (u, BatchPorts.mk .waiting done true)
    else
      match instrStep u with
      | .next t =>
        if t.fault.isSome then (t, BatchPorts.mk .faulted done true) else batchFrom left before.tail (done + 1) t
      | .fault _ => (u, BatchPorts.mk .faulted done true)
      | .refused _ => (u, BatchPorts.mk .faulted done true)

/-- `Batch()` of R112 for a given batch size, with the host's events between its steps (none before the first); its
result stands on the batch ports (R115, logs 14, 15). -/
def State.runBatch (size : Nat) (between : List (List HostEvent)) (s : State) : State :=
  { (batchFrom size ([] :: between) 0 s).1 with batch := (batchFrom size ([] :: between) 0 s).2 }

/-! ### The host's moves -/

/-- The host lets the CORE take one step; a faulted CORE declines, unchanged (spec/10_state.md R32, log 8). -/
def letRun (s : State) : Result := if s.fault.isSome then .next s else instrStep s

/-- One move of the host. -/
def hostMove (m : HostMove) (s : State) : Result :=
  match m with
  | .run => letRun s
  | .event e => .next (s.hostEvent e)
  | .runBatch between => .next (s.runBatch Config.batchSize between)

/-! ### Placing an instruction where the next step fetches it -/

/-- Memory with the two bytes of `w` at `a` and `a + 1`, where both exist. -/
def Memory.placeWord (m : Memory) (a : Nat) (w : Word) : Memory :=
  if a + 1 < Config.memSize then (m.write a (bytesOfWord w).1).write (a + 1) (bytesOfWord w).2 else m

end Sys2Proof.Machine
end

