-- ==== Sys2Proof/Machine/Step.lean ====
section
/-! DEFINITION. The step of the machine: the host's next move if one is pending, else one instruction step
(spec/60_exceptions.md R114; log 5). -/

namespace Sys2Proof.Machine

/-- One step: play the host's next move, or, with none left, take an instruction step. -/
def step (s : State) : Host.Outcome State Fault Refusal :=
  match s.hostMoves with
  | [] => instrStep s
  | m :: rest => hostMove m { s with hostMoves := rest }

/-- `s` with an instruction's word stored at PC, no host move pending and no fault latched, so that the very next step
fetches and runs it (log 10). -/
def State.withFetchWord (s : State) (nbits w : Nat) : State :=
  { s with mem := s.mem.placeWord s.pc.toNat (tableWord nbits w), fault := none, hostMoves := [] }

end Sys2Proof.Machine
end

