-- ==== Sys2Proof/Machine/Boot.lean ====
section
/-! DEFINITION. Boot (spec/70_reset_and_hazards.md R127, R128): the host binds memory and framebuffer, loads the launch
image, and resets the CORE. The CORE itself loads nothing; `State.reset` holds no image (log 10). -/

namespace Sys2Proof.Machine

/-- The state the host starts the CORE in (R128): the CORE at its reset values over the host's memory and
framebuffer, whatever they hold. -/
def State.launch (image : Memory) (fb : Framebuffer) : State := { State.reset with mem := image, fb := fb }

/-- The conventional glyphs of digits 0 to 7, 5 bytes each (R127, which marks them general knowledge; log 17). -/
def fontLow : List Byte :=
  [0xF0, 0x90, 0x90, 0x90, 0xF0] ++ [0x20, 0x60, 0x20, 0x20, 0x70] ++ [0xF0, 0x10, 0xF0, 0x80, 0xF0] ++
  [0xF0, 0x10, 0xF0, 0x10, 0xF0] ++ [0x90, 0x90, 0xF0, 0x10, 0x10] ++ [0xF0, 0x80, 0xF0, 0x10, 0xF0] ++
  [0xF0, 0x80, 0xF0, 0x90, 0xF0] ++ [0xF0, 0x10, 0x20, 0x40, 0x40]

/-- The conventional glyphs of digits 8 to F (R127; log 17). -/
def fontHigh : List Byte :=
  [0xF0, 0x90, 0xF0, 0x90, 0xF0] ++ [0xF0, 0x90, 0xF0, 0x10, 0xF0] ++ [0xF0, 0x90, 0xF0, 0x90, 0x90] ++
  [0xE0, 0x90, 0xE0, 0x90, 0xE0] ++ [0xF0, 0x80, 0x80, 0x80, 0xF0] ++ [0xE0, 0x90, 0x90, 0x90, 0xE0] ++
  [0xF0, 0x80, 0xF0, 0x80, 0xF0] ++ [0xF0, 0x80, 0xF0, 0x80, 0x80]

/-- A launch image of a host that wants the conventional font: the glyphs at FONT_BASE, the program at LOAD_ADDR. -/
def bootImage (program : List Byte) : Memory :=
  ((Memory.writeBytes [] Config.fontBase (fontLow ++ fontHigh))).writeBytes Config.loadAddr.toNat program

/-- Boot with a program, the conventional font and a clear framebuffer (R127, R128). -/
def State.boot (program : List Byte) : State := State.launch (bootImage program) Framebuffer.clear

end Sys2Proof.Machine
end

