-- ==== Sys2Proof/Machine/Ports.lean ====
section
/-! DEFINITION. The output ports of the CORE (spec/60_exceptions.md R115) as functions of the state. Input ports are the
host's moves (`rst`, `tick`, `keys`, `run_batch`) and the free value `Config.randByte` (`rnd`); the `mem_`, `fb_` and
`present_req` transactions of a step are in Transactions. -/

namespace Sys2Proof.Machine

/-- `fault_code`: the latched code, 0 when none. -/
def State.faultCode (s : State) : BitVec 3 :=
  match s.fault with
  | some f => f.cause.code
  | none => 0

/-- `fault_info`: the latched information, while a fault is latched. -/
def State.faultInfo (s : State) : Option (BitVec 17) := s.fault.map fun f => f.cause.info

/-- `fault_kind`: the access kind, "for code 1". -/
def State.faultKind (s : State) : Option (BitVec 2) :=
  match s.fault with
  | some f => f.cause.kind.map AccessKind.code
  | none => none

/-- `fault_pc`: the address of the faulting instruction, while a fault is latched. -/
def State.faultPC (s : State) : Option Word := s.fault.map fun f => f.pc

/-- `batch_reason`: 0 Done, 1 Waiting, 2 Faulted. -/
def BatchReason.code : BatchReason → BitVec 2
  | .done => 0
  | .waiting => 1
  | .faulted => 2

/-- `batch_reason` of the last batch. -/
def State.batchReasonPort (s : State) : BitVec 2 := s.batch.reason.code

/-- `batch_steps`: steps_done of the last batch, in 16 bits (log 14). -/
def State.batchStepsPort (s : State) : BitVec 16 := BitVec.ofNat 16 s.batch.steps

/-- `batch_done`: 1 when a batch has finished; `batch_reason` and `batch_steps` then show its result (log 14). A batch runs within one
step of the model, so between steps the port is 0 only before the first batch. -/
def State.batchDonePort (s : State) : Bool := s.batch.finished

/-- `waiting`: 1 when the last batch ended with Waiting. -/
def State.waitingPort (s : State) : Bool := s.batch.reason == .waiting

/-- `sound_timer`: the current ST (R120). -/
def State.soundTimerPort (s : State) : Byte := s.st

end Sys2Proof.Machine
end

