-- ==== Sys2Proof/Safety.lean ====
section
/-! DEFINITION. What counts as a safe state, where a run ends (spec/70_reset_and_hazards.md R133), and the
well-formedness of states that claims use. -/

namespace Sys2Proof.Machine

/-- A safe state: nothing has faulted (a program keeps R131). -/
abbrev State.safe (s : State) : Prop := s.fault = none

/-- The end of a run at a step boundary (R133): (a) a fault, (b) the word at PC jumps to PC, (c) a waiting `Fx0A`. -/
def State.atEnd (s : State) : Bool :=
  s.fault.isSome
    || (s.fetchFault.isNone &&
        match decode s.fetchWord with
        | .jp nnn => zextAddr nnn == s.pc
        | _ => false)
    || s.waits

/-- What a latched fault says of the state it stopped in (spec/60_exceptions.md R104, R105): PC is still at the
faulting instruction, and the recorded information is that of the cause. -/
def FaultLatch.describes (f : FaultLatch) (s : State) : Prop :=
  f.pc = s.pc ∧
    match f.cause with
    | .invalidMemoryAccess a .fetch =>
      Config.memSize ≤ s.pc.toNat + 1 ∧ a.toNat = max s.pc.toNat Config.memSize
    | .invalidMemoryAccess a .read => a.toNat = max s.i.toNat Config.memSize
    | .invalidMemoryAccess a .write => a.toNat = max s.i.toNat Config.memSize
    | .stackOverflow n => n = s.sp ∧ n.val = Config.stackDepth - 1
    | .stackUnderflow => s.sp.val = 0
    | .keyIndexOutOfRange k => 15 < k.toNat ∧ ∃ r : Reg, s.getV r = k

/-- A latch, if set, describes the state. -/
def State.latchSound (s : State) : Prop := ∀ f, s.fault = some f → f.describes s

/-- The parts of a state, one per field: what a frame says may change. -/
inductive Part where
  | v | i | pc | sp | stack | dt | st | fault
  | mem | fb | keys | presentRequests | batch | randDraws | hostMoves
deriving DecidableEq, Repr

/-- The frame: `t` is `s` in every part that is not in `may`. V is compared register by register, memory by what each
address reads as, the framebuffer pixel by pixel, the stack entry by entry. -/
structure State.unchangedExcept (t s : State) (may : List Part) : Prop where
  v : Part.v ∉ may → ∀ r : Reg, t.getV r = s.getV r
  i : Part.i ∉ may → t.i = s.i
  pc : Part.pc ∉ may → t.pc = s.pc
  sp : Part.sp ∉ may → t.sp = s.sp
  stack : Part.stack ∉ may → ∀ k : Fin Config.stackDepth, t.stack[k.val] = s.stack[k.val]
  dt : Part.dt ∉ may → t.dt = s.dt
  st : Part.st ∉ may → t.st = s.st
  fault : Part.fault ∉ may → t.fault = s.fault
  mem : Part.mem ∉ may → ∀ a : Nat, t.mem.read a = s.mem.read a
  fb : Part.fb ∉ may → ∀ (px : Fin Config.fbW) (py : Fin Config.fbH), Framebuffer.get t.fb px py = Framebuffer.get s.fb px py
  keys : Part.keys ∉ may → t.keys = s.keys
  presentRequests : Part.presentRequests ∉ may → t.presentRequests = s.presentRequests
  batch : Part.batch ∉ may → t.batch = s.batch
  randDraws : Part.randDraws ∉ may → t.randDraws = s.randDraws
  hostMoves : Part.hostMoves ∉ may → t.hostMoves = s.hostMoves

/-- Pixel (px, py) is a destination of a set bit of the sprite of `n` rows at `M[i ..]` drawn at origin (ox, oy): some
set bit of row r at offset k goes to column `(ox + k) mod FB_W` and row `(oy + r) mod FB_H` (spec/43_sprite.md R91,
R92). -/
def spriteSets (m : Memory) (i ox oy n : Nat) (px : Fin Config.fbW) (py : Fin Config.fbH) : Prop :=
  ∃ k r, k < 8 ∧ r < n ∧ px.val = (ox + k) % Config.fbW ∧ py.val = (oy + r) % Config.fbH ∧
    (m.read (i + r)).getLsbD (7 - k) = true

/-- The parts of the state an instruction may write, from the effect its rule gives it (spec/30_encoding.md R54 names
the rules); a faulting instruction writes the latch. -/
def mayWrite : Instr → List Part
  | .cls => [.fb, .pc]
  | .ret => [.sp, .pc, .fault]
  | .jp _ | .jpV0 _ => [.pc]
  | .call _ => [.sp, .stack, .pc, .fault]
  | .seImm _ _ | .sneImm _ _ | .seReg _ _ | .sneReg _ _ => [.pc]
  | .ldImm _ _ | .addImm _ _ | .ldReg _ _ | .or _ _ | .and _ _ | .xor _ _ => [.v, .pc]
  | .addReg _ _ | .sub _ _ | .shr _ | .subn _ _ | .shl _ => [.v, .pc]
  | .ldI _ | .addI _ | .ldF _ => [.i, .pc]
  | .rnd _ _ => [.v, .randDraws, .pc]
  | .drw _ _ _ => [.fb, .v, .presentRequests, .pc, .fault]
  | .skp _ | .sknp _ => [.pc, .fault]
  | .ldVxDt _ | .ldVxK _ => [.v, .pc]
  | .ldDtVx _ => [.dt, .pc]
  | .ldStVx _ => [.st, .pc]
  | .ldB _ | .storeRegs _ => [.mem, .pc, .fault]
  | .loadRegs _ => [.v, .pc, .fault]
  | .nop0 _ | .nop8 _ | .nopE _ | .nopF _ => [.pc]

/-- Whether an instruction may leave a new value in VF: the flag writers of spec/10_state.md R22, and any instruction
whose destination is (or, for the block load, includes) VF. -/
def mayWriteVF : Instr → Bool
  | .addReg _ _ | .sub _ _ | .shr _ | .subn _ _ | .shl _ | .drw _ _ _ => true
  | .ldImm x _ | .addImm x _ | .rnd x _ => x == Reg.vF
  | .ldReg x _ | .or x _ | .and x _ | .xor x _ => x == Reg.vF
  | .ldVxDt x | .ldVxK x | .loadRegs x => x == Reg.vF
  | .cls | .ret | .jp _ | .jpV0 _ | .call _ | .seImm _ _ | .sneImm _ _ | .seReg _ _ | .sneReg _ _ => false
  | .ldI _ | .addI _ | .ldF _ | .skp _ | .sknp _ | .ldDtVx _ | .ldStVx _ | .ldB _ | .storeRegs _ => false
  | .nop0 _ | .nop8 _ | .nopE _ | .nopF _ => false

/-- `k` instruction steps lead from `s` to `u`, each completed: neither a Wait nor a Fault (spec/00_scope.md R18).
`before` holds the host's events before each step (spec/60_exceptions.md R114). -/
def completedSteps : Nat → List (List HostEvent) → State → State → Prop
  | 0, _, s, u => u = s
  | k + 1, before, s, u =>
    (s.hostEvents (before.headD [])).waits = false ∧
      ∃ t, instrStep (s.hostEvents (before.headD [])) = .next t ∧ t.fault = none ∧ completedSteps k before.tail t u

/-- The canonical form of a word: every ignored field set to 0 (spec/30_encoding.md R57); of a NOP word only the class
and the unrecognised secondary code are kept (log 11). -/
def canonicalWord (w : Word) : Word :=
  if w.toNat / 4096 = 0x0 then u16 (w.toNat % 256)
  else if w.toNat / 4096 = 0x5 ∨ w.toNat / 4096 = 0x9 then u16 (w.toNat / 16 * 16)
  else if w.toNat / 4096 = 0x8 ∧ (w.toNat % 16 = 0x6 ∨ w.toNat % 16 = 0xE) then
    u16 (w.toNat / 256 * 256 + w.toNat % 16)
  else if w.toNat / 4096 = 0x8 ∧ 0x8 ≤ w.toNat % 16 then u16 (0x8000 + w.toNat % 16)
  else if w.toNat / 4096 = 0xE ∧ w.toNat % 256 ∉ [0x9E, 0xA1] then u16 (0xE000 + w.toNat % 256)
  else if w.toNat / 4096 = 0xF ∧ w.toNat % 256 ∉ [0x07, 0x0A, 0x15, 0x18, 0x1E, 0x29, 0x33, 0x55, 0x65] then
    u16 (0xF000 + w.toNat % 256)
  else w

end Sys2Proof.Machine
end

