-- ==== Sys2Proof/Certificates/Slice0/Obligations.lean ====
section
/-! DEFINITION. The statements for the provers, in the order of the spec's files. Words are written by the formulas of the
opcode table (match + field values); numbers are those of spec/00_scope.md R6: MEM_SIZE 4096, STACK_DEPTH 16, FB 64 x 32.
`t.unchangedExcept s parts` is the frame: every part of State not listed is as before, memory read byte by byte. -/

open Sys2Proof Sys2Proof.Machine

/-! ### Encoding (spec/30_encoding.md) -/

/-- Decoding the word of a well-formed instruction gives it back, whatever its operands (R50, R54). The words of NOPs
are the model's choice (log 11). -/
def Obligations.DecodeInvertsEncode : Prop :=
  ∀ i : Instr, i.wellFormed = true → decode (encode i) = i

/-- Every word decodes to a well-formed instruction (R53), whose encoding is the word with the ignored fields set to 0
(R57; for NOP words log 11). -/
def Obligations.EncodeOfDecodeIsCanonical : Prop :=
  ∀ w : Word, (decode w).wellFormed = true ∧ encode (decode w) = canonicalWord w

/-- R57: the fields an instruction does not use do not change what a word decodes to, and the encoder sets them to 0. -/
def Obligations.IgnoredFieldsDoNotMatter : Prop :=
  (∀ x : Reg, decode (u16 (0x00E0 + 256 * x.val)) = .cls ∧ decode (u16 (0x00EE + 256 * x.val)) = .ret) ∧
  (∀ (x y : Reg) (n : Nibble),
    decode (u16 (0x5000 + 256 * x.val + 16 * y.val + n.toNat)) = .seReg x y ∧
    decode (u16 (0x9000 + 256 * x.val + 16 * y.val + n.toNat)) = .sneReg x y) ∧
  (∀ x y : Reg, decode (u16 (0x8006 + 256 * x.val + 16 * y.val)) = .shr x ∧
    decode (u16 (0x800E + 256 * x.val + 16 * y.val)) = .shl x) ∧
  encode .cls = 0x00E0 ∧ encode .ret = 0x00EE ∧
  (∀ x y : Reg, encode (.seReg x y) = u16 (0x5000 + 256 * x.val + 16 * y.val) ∧
    encode (.sneReg x y) = u16 (0x9000 + 256 * x.val + 16 * y.val)) ∧
  (∀ x : Reg, encode (.shr x) = u16 (0x8006 + 256 * x.val) ∧ encode (.shl x) = u16 (0x800E + 256 * x.val))

/-- R55: the words that are NOPs, exactly, and what a NOP does: the default advance and nothing else. -/
def Obligations.NopWordsAndEffect : Prop :=
  (∀ w : Word,
    ((∃ nn, decode w = .nop0 nn) ↔ w.toNat / 4096 = 0x0 ∧ w.toNat % 256 ∉ [0xE0, 0xEE]) ∧
    ((∃ n, decode w = .nop8 n) ↔
      w.toNat / 4096 = 0x8 ∧ w.toNat % 16 ∈ [0x8, 0x9, 0xA, 0xB, 0xC, 0xD, 0xF]) ∧
    ((∃ nn, decode w = .nopE nn) ↔ w.toNat / 4096 = 0xE ∧ w.toNat % 256 ∉ [0x9E, 0xA1]) ∧
    ((∃ nn, decode w = .nopF nn) ↔
      w.toNat / 4096 = 0xF ∧
        w.toNat % 256 ∉ [0x07, 0x0A, 0x15, 0x18, 0x1E, 0x29, 0x33, 0x55, 0x65])) ∧
  ∀ s : State,
    (∀ nn, ∃ t, exec (.nop0 nn) s = .next t ∧ t.pc = u16 (s.pc.toNat + 2) ∧ t.unchangedExcept s [.pc]) ∧
    (∀ n, ∃ t, exec (.nop8 n) s = .next t ∧ t.pc = u16 (s.pc.toNat + 2) ∧ t.unchangedExcept s [.pc]) ∧
    (∀ nn, ∃ t, exec (.nopE nn) s = .next t ∧ t.pc = u16 (s.pc.toNat + 2) ∧ t.unchangedExcept s [.pc]) ∧
    (∀ nn, ∃ t, exec (.nopF nn) s = .next t ∧ t.pc = u16 (s.pc.toNat + 2) ∧ t.unchangedExcept s [.pc])

/-- Words written out bit by bit from R50 and R54 decode to the instructions they stand for, one or more per family. -/
def Obligations.WrittenOutWordsDecode : Prop :=
  decode 0b0000000011100000 = .cls ∧
  decode 0b0000000011101110 = .ret ∧
  decode 0b0001001000110100 = .jp 0x234 ∧
  decode 0b0010011110001001 = .call 0x789 ∧
  decode 0b0011001101000010 = .seImm 3 0x42 ∧
  decode 0b0110101001111011 = .ldImm 10 0x7B ∧
  decode 0b1000000100100101 = .sub 1 2 ∧
  decode 0b1000111100001110 = .shl 15 ∧
  decode 0b1011001100000000 = .jpV0 0x300 ∧
  decode 0b1101000000010101 = .drw 0 1 5 ∧
  decode 0b1110000110011110 = .skp 1 ∧
  decode 0b1111101000110011 = .ldB 10 ∧
  decode 0b1111000100001010 = .ldVxK 1 ∧
  decode 0b1000101010111001 = .nop8 9

/-! ### The step (spec/30_encoding.md R52, R59; spec/60_exceptions.md) -/

/-- A step runs the decoded instruction: with no fault latched and the two bytes at PC (big-endian) decoding to i, a step
with no host move pending is `exec i`, and a host's `run` move is `exec i` with that move taken off the list. The
step adds nothing else; exec itself moves PC. -/
def Obligations.StepRunsDecodedInstruction : Prop :=
  ∀ (s : State) (hi lo : Byte) (i : Instr),
    s.fault = none → s.pc.toNat + 1 < 4096 →
    s.mem.read s.pc.toNat = hi → s.mem.read (s.pc.toNat + 1) = lo →
    decode (u16 (256 * hi.toNat + lo.toNat)) = i →
    (s.hostMoves = [] → step s = exec i s) ∧
    (∀ rest, s.hostMoves = HostMove.run :: rest → step s = exec i { s with hostMoves := rest })

/-- R52: a fetch whose second byte would leave memory faults, reports the first address outside, and changes nothing but
the latch; any other fetch reads `M[PC] ++ M[PC+1]`. -/
def Obligations.FetchReadsWordOrFaults : Prop :=
  ∀ s : State, s.fault = none →
    (4096 ≤ s.pc.toNat + 1 →
      instrStep s = .next { s with
        fault := some ⟨.invalidMemoryAccess
          (BitVec.ofNat 17 (if 4096 ≤ s.pc.toNat then s.pc.toNat else s.pc.toNat + 1)) .fetch, s.pc⟩ }) ∧
    (s.pc.toNat + 1 < 4096 →
      instrStep s =
        exec (decode (u16 (256 * (s.mem.read s.pc.toNat).toNat + (s.mem.read (s.pc.toNat + 1)).toNat))) s)

/-- A faulted CORE takes no instruction step: with no host move left the machine stands still (outcome `halted`, log 8),
an offered run or batch changes nothing but the list of moves and the batch ports (result 0, Faulted, log 14), and ticks
and reset still apply. -/
def Obligations.FaultedCoreTakesNoStep : Prop :=
  ∀ (s : State) (f : FaultLatch), s.fault = some f →
    (s.hostMoves = [] → step s = .fault (.halted f)) ∧
    (∀ rest, s.hostMoves = HostMove.run :: rest → step s = .next { s with hostMoves := rest }) ∧
    (∀ between rest, s.hostMoves = HostMove.runBatch between :: rest →
      step s = .next { s with hostMoves := rest, batch := ⟨.faulted, 0, true⟩ }) ∧
    (∀ rest, s.hostMoves = HostMove.event .tick :: rest → ∃ t, step s = .next t ∧ t.fault = some f ∧
      t.dt.toNat = s.dt.toNat - 1) ∧
    (∀ rest, s.hostMoves = HostMove.event .reset :: rest → ∃ t, step s = .next t ∧ t.fault = none)

/-- The step stops at nothing but a latched fault with no host move left (outcome `halted`, log 8); every instruction
always has a next state, because the outcomes Wait and Fault of R18 are next states of the model (log 9). -/
def Obligations.StepStopsOnlyAtLatchedFault : Prop :=
  (∀ (i : Instr) (s : State), ∃ t, exec i s = .next t) ∧
  ∀ s : State, (∃ t, step s = .next t) ∨
    (s.hostMoves = [] ∧ ∃ f, s.fault = some f ∧ step s = .fault (.halted f))

/-- Storing a word where the step fetches makes the very next step run it (log 10), from every state whose memory is
canonical and whose PC leaves room for a word. -/
def Obligations.PlacedWordRunsNext : Prop :=
  ∀ (s : State) (w : Word), s.mem.wf → s.pc.toNat + 1 < 4096 →
    step (s.withFetchWord 16 w.toNat) = exec (decode w) (s.withFetchWord 16 w.toNat) ∧
    (s.withFetchWord 16 w.toNat).unchangedExcept s [.mem, .fault, .hostMoves]

/-- R58: where PC goes. After a fault it has not moved; else it is as the instruction sets it, or advanced by 2. -/
def Obligations.PcAfterEachInstruction : Prop :=
  ∀ (i : Instr) (s t : State), s.fault = none → exec i s = .next t →
    (t.fault ≠ none → t.pc = s.pc) ∧
    (t.fault = none →
      match i with
      | .ret => t.pc = s.stack[s.sp.val]
      | .jp nnn | .call nnn => t.pc.toNat = nnn.toNat
      | .jpV0 nnn => t.pc.toNat = nnn.toNat + (s.getV 0).toNat
      | .seImm x nn => t.pc = u16 (s.pc.toNat + if s.getV x = nn then 4 else 2)
      | .sneImm x nn => t.pc = u16 (s.pc.toNat + if s.getV x = nn then 2 else 4)
      | .seReg x y => t.pc = u16 (s.pc.toNat + if s.getV x = s.getV y then 4 else 2)
      | .sneReg x y => t.pc = u16 (s.pc.toNat + if s.getV x = s.getV y then 2 else 4)
      | .skp x => t.pc = u16 (s.pc.toNat + if s.keys.getLsbD (s.getV x).toNat then 4 else 2)
      | .sknp x => t.pc = u16 (s.pc.toNat + if s.keys.getLsbD (s.getV x).toNat then 2 else 4)
      | .ldVxK _ => t.pc = if s.keys = 0 then s.pc else u16 (s.pc.toNat + 2)
      | _ => t.pc = u16 (s.pc.toNat + 2))

/-! ### Reset and the host's moves -/

/-- R125, R35: reset, a move of the host (log 5), zeroes V, I, SP, the stack and the timers, puts PC at LOAD_ADDR, clears
the latch, and leaves M and FB as they were. That it leaves KEYS as it was is the model's choice (log 4). (The output ports and the counters that only the model keeps are
left out of the frame: no rule says what reset does to them, logs 6, 13, 14.) -/
def Obligations.ResetSetsEveryRegister : Prop :=
  ∀ (s : State) (rest : List HostMove), s.hostMoves = HostMove.event .reset :: rest →
    ∃ t, step s = .next t ∧
      (∀ r : Reg, t.getV r = 0) ∧ t.i = 0 ∧ t.pc = 0x200 ∧ t.sp.val = 0 ∧
      (∀ k : Fin 16, t.stack[k.val] = 0) ∧ t.dt = 0 ∧ t.st = 0 ∧ t.fault = none ∧ t.hostMoves = rest ∧
      t.unchangedExcept s [.v, .i, .pc, .sp, .stack, .dt, .st, .fault, .hostMoves, .presentRequests, .batch, .randDraws]

/-- The machine right after reset holds the values of R35. (What R35 leaves to the host, M, FB and KEYS, is the model's
choice, logs 2, 3, 4, and is not stated here.) -/
def Obligations.ResetStateHoldsTheTableValues : Prop :=
  (∀ r : Reg, State.reset.getV r = 0) ∧ State.reset.i = 0 ∧ State.reset.pc = 0x200 ∧ State.reset.sp.val = 0 ∧
  (∀ k : Fin 16, State.reset.stack[k.val] = 0) ∧ State.reset.dt = 0 ∧ State.reset.st = 0 ∧
  State.reset.fault = none

/-- R110: a tick takes 1 from each timer that is not 0, in every state of the CORE (waiting and faulted too), and changes
nothing else. -/
def Obligations.TickCountsDown : Prop :=
  ∀ (s : State) (rest : List HostMove), s.hostMoves = HostMove.event .tick :: rest →
    ∃ t, step s = .next t ∧ t.dt.toNat = s.dt.toNat - 1 ∧ t.st.toNat = s.st.toNat - 1 ∧ t.hostMoves = rest ∧
      t.unchangedExcept s [.dt, .st, .hostMoves]

/-- Any number of ticks: the timers stop at 0, "never negative". -/
def Obligations.TicksStopAtZero : Prop :=
  ∀ (n : Nat) (s : State),
    (Nat.iterate State.tick n s).dt.toNat = s.dt.toNat - n ∧
    (Nat.iterate State.tick n s).st.toNat = s.st.toNat - n ∧
    (Nat.iterate State.tick n s).unchangedExcept s [.dt, .st]

/-- The host may change KEYS, or read the framebuffer, between any two steps; nothing else of the CORE changes (the list
of moves is the model's, log 5). -/
def Obligations.KeyUpdateAndPresentTouchNothingElse : Prop :=
  ∀ (s : State) (rest : List HostMove),
    (∀ k, s.hostMoves = HostMove.event (.setKeys k) :: rest →
      ∃ t, step s = .next t ∧ t.keys = k ∧ t.hostMoves = rest ∧ t.unchangedExcept s [.keys, .hostMoves]) ∧
    (s.hostMoves = HostMove.event .present :: rest →
      ∃ t, step s = .next t ∧ t.hostMoves = rest ∧ t.unchangedExcept s [.hostMoves])

/-- R112, R113: a batch of any size runs completed steps until the size is reached, a step would wait, or a step faults; the
result is the number of completed steps and the reason. A batch on a faulted CORE is (0, Faulted). Between two steps of
it the host may do any events (R114): `between` holds them. The model's choices: a batch is one move with its events
(logs 5, 15), of a fixed size of at least 1 that is otherwise open (log 7), and its result stands on the batch ports, with
`batch_done` 1 (log 14). -/
def Obligations.BatchRunsCompletedSteps : Prop :=
  (∃ size, 1 ≤ size ∧ ∀ (s : State) (between : List (List HostEvent)) (rest : List HostMove),
    s.hostMoves = HostMove.runBatch between :: rest →
      step s = .next (State.runBatch size between { s with hostMoves := rest })) ∧
  ∀ (size : Nat) (between : List (List HostEvent)) (s : State), 1 ≤ size →
    ((s.runBatch size between).hostMoves = s.hostMoves) ∧
    (s.fault ≠ none → s.runBatch size between = { s with batch := ⟨.faulted, 0, true⟩ }) ∧
    (s.fault = none → ∃ k u,
      completedSteps k ([] :: between) s u ∧ (s.runBatch size between).batch.steps = k ∧
      ((k = size ∧ s.runBatch size between = { u with batch := ⟨.done, k, true⟩ }) ∨
       (k < size ∧ ∃ u', u' = u.hostEvents (([] :: between).getD k []) ∧
         ((u'.waits = true ∧ s.runBatch size between = { u' with batch := ⟨.waiting, k, true⟩ }) ∨
          (u'.waits = false ∧ ∃ t, instrStep u' = .next t ∧ t.fault ≠ none ∧
            s.runBatch size between = { t with batch := ⟨.faulted, k, true⟩ })))))

/-! ### Control flow (spec/40_flow.md) -/

/-- R63 RET. -/
def Obligations.RetPopsTheReturnAddress : Prop :=
  (∀ x : Reg, decode (u16 (0x00EE + 256 * x.val)) = .ret) ∧
  ∀ s : State,
    (s.sp.val ≠ 0 → ∃ t, exec .ret s = .next t ∧ t.pc = s.stack[s.sp.val] ∧ t.sp.val = s.sp.val - 1 ∧
      t.unchangedExcept s [.pc, .sp]) ∧
    (s.sp.val = 0 → exec .ret s = .next { s with fault := some ⟨.stackUnderflow, s.pc⟩ })

/-- R64 JP nnn. -/
def Obligations.JpSetsPc : Prop :=
  (∀ nnn : Addr12, decode (u16 (0x1000 + nnn.toNat)) = .jp nnn) ∧
  ∀ (nnn : Addr12) (s : State), ∃ t, exec (.jp nnn) s = .next t ∧ t.pc.toNat = nnn.toNat ∧ t.unchangedExcept s [.pc]

/-- R65 CALL nnn. -/
def Obligations.CallPushesTheReturnAddress : Prop :=
  (∀ nnn : Addr12, decode (u16 (0x2000 + nnn.toNat)) = .call nnn) ∧
  ∀ (nnn : Addr12) (s : State),
    (s.sp.val ≠ 15 → ∃ t, exec (.call nnn) s = .next t ∧ t.sp.val = s.sp.val + 1 ∧
      (∀ k : Fin 16, t.stack[k.val] = if k.val = s.sp.val + 1 then u16 (s.pc.toNat + 2) else s.stack[k.val]) ∧
      t.pc.toNat = nnn.toNat ∧ t.unchangedExcept s [.sp, .stack, .pc]) ∧
    (s.sp.val = 15 → exec (.call nnn) s = .next { s with fault := some ⟨.stackOverflow s.sp, s.pc⟩ })

/-- R66, R67: the skips on a constant. -/
def Obligations.SkipsOnImmediate : Prop :=
  (∀ (x : Reg) (nn : Byte), decode (u16 (0x3000 + 256 * x.val + nn.toNat)) = .seImm x nn ∧
    decode (u16 (0x4000 + 256 * x.val + nn.toNat)) = .sneImm x nn) ∧
  ∀ (x : Reg) (nn : Byte) (s : State),
    (∃ t, exec (.seImm x nn) s = .next t ∧
      t.pc = (if s.getV x = nn then u16 (s.pc.toNat + 4) else u16 (s.pc.toNat + 2)) ∧ t.unchangedExcept s [.pc]) ∧
    (∃ t, exec (.sneImm x nn) s = .next t ∧
      t.pc = (if s.getV x ≠ nn then u16 (s.pc.toNat + 4) else u16 (s.pc.toNat + 2)) ∧ t.unchangedExcept s [.pc])

/-- R68, R69: the skips on two registers; the low nibble of the word is not examined. -/
def Obligations.SkipsOnRegisters : Prop :=
  (∀ (x y : Reg) (n : Nibble), decode (u16 (0x5000 + 256 * x.val + 16 * y.val + n.toNat)) = .seReg x y ∧
    decode (u16 (0x9000 + 256 * x.val + 16 * y.val + n.toNat)) = .sneReg x y) ∧
  ∀ (x y : Reg) (s : State),
    (∃ t, exec (.seReg x y) s = .next t ∧
      t.pc = (if s.getV x = s.getV y then u16 (s.pc.toNat + 4) else u16 (s.pc.toNat + 2)) ∧
      t.unchangedExcept s [.pc]) ∧
    (∃ t, exec (.sneReg x y) s = .next t ∧
      t.pc = (if s.getV x ≠ s.getV y then u16 (s.pc.toNat + 4) else u16 (s.pc.toNat + 2)) ∧
      t.unchangedExcept s [.pc])

/-- R70 JP V0, nnn: the register is always V0; the sum never wraps. -/
def Obligations.JpV0AddsV0 : Prop :=
  (∀ nnn : Addr12, decode (u16 (0xB000 + nnn.toNat)) = .jpV0 nnn) ∧
  ∀ (nnn : Addr12) (s : State), ∃ t, exec (.jpV0 nnn) s = .next t ∧
    t.pc.toNat = nnn.toNat + (s.getV 0).toNat ∧ t.unchangedExcept s [.pc]

/-- The call/return law: a call and, from any state with the call's stack, a return lead back to the word after the call
with SP as before the call. -/
def Obligations.ReturnUndoesCall : Prop :=
  ∀ (nnn : Addr12) (s : State), s.sp.val ≠ 15 →
    ∃ t, exec (.call nnn) s = .next t ∧
      ∀ u : State, u.sp = t.sp → u.stack = t.stack →
        ∃ w, exec .ret u = .next w ∧ w.pc = u16 (s.pc.toNat + 2) ∧ w.sp = s.sp

/-- A jump to its own address leaves the whole state unchanged: the usual end of a run, R133 (b). -/
def Obligations.SelfJumpChangesNothing : Prop :=
  ∀ (nnn : Addr12) (s : State), s.fault = none → s.hostMoves = [] → s.pc.toNat = nnn.toNat → s.pc.toNat + 1 < 4096 →
    decode (u16 (256 * (s.mem.read s.pc.toNat).toNat + (s.mem.read (s.pc.toNat + 1)).toNat)) = .jp nnn →
    step s = .next s

/-! ### Register loads, arithmetic and logic (spec/41_alu.md) -/

/-- R73 LD Vx, nn. -/
def Obligations.LdImmLoadsTheConstant : Prop :=
  (∀ (x : Reg) (nn : Byte), decode (u16 (0x6000 + 256 * x.val + nn.toNat)) = .ldImm x nn) ∧
  ∀ (x : Reg) (nn : Byte) (s : State), ∃ t, exec (.ldImm x nn) s = .next t ∧
    (∀ r, t.getV r = if r = x then nn else s.getV r) ∧ t.pc = u16 (s.pc.toNat + 2) ∧ t.unchangedExcept s [.v, .pc]

/-- R74 ADD Vx, nn: no flag. -/
def Obligations.AddImmWrapsWithNoFlag : Prop :=
  (∀ (x : Reg) (nn : Byte), decode (u16 (0x7000 + 256 * x.val + nn.toNat)) = .addImm x nn) ∧
  ∀ (x : Reg) (nn : Byte) (s : State), ∃ t, exec (.addImm x nn) s = .next t ∧
    (∀ r, (t.getV r).toNat = if r = x then ((s.getV x).toNat + nn.toNat) % 256 else (s.getV r).toNat) ∧
    t.pc = u16 (s.pc.toNat + 2) ∧ t.unchangedExcept s [.v, .pc]

/-- R75 LD Vx, Vy. -/
def Obligations.LdRegCopies : Prop :=
  (∀ x y : Reg, decode (u16 (0x8000 + 256 * x.val + 16 * y.val)) = .ldReg x y) ∧
  ∀ (x y : Reg) (s : State), ∃ t, exec (.ldReg x y) s = .next t ∧
    (∀ r, t.getV r = if r = x then s.getV y else s.getV r) ∧ t.pc = u16 (s.pc.toNat + 2) ∧
    t.unchangedExcept s [.v, .pc]

/-- R76, R77, R78: OR, AND, XOR; VF is written only as the destination. -/
def Obligations.LogicWritesOnlyTheDestination : Prop :=
  (∀ x y : Reg, decode (u16 (0x8001 + 256 * x.val + 16 * y.val)) = .or x y ∧
    decode (u16 (0x8002 + 256 * x.val + 16 * y.val)) = .and x y ∧
    decode (u16 (0x8003 + 256 * x.val + 16 * y.val)) = .xor x y) ∧
  ∀ (x y : Reg) (s : State),
    (∃ t, exec (.or x y) s = .next t ∧ (∀ r, t.getV r = if r = x then s.getV x ||| s.getV y else s.getV r) ∧
      t.pc = u16 (s.pc.toNat + 2) ∧ t.unchangedExcept s [.v, .pc]) ∧
    (∃ t, exec (.and x y) s = .next t ∧ (∀ r, t.getV r = if r = x then s.getV x &&& s.getV y else s.getV r) ∧
      t.pc = u16 (s.pc.toNat + 2) ∧ t.unchangedExcept s [.v, .pc]) ∧
    (∃ t, exec (.xor x y) s = .next t ∧ (∀ r, t.getV r = if r = x then s.getV x ^^^ s.getV y else s.getV r) ∧
      t.pc = u16 (s.pc.toNat + 2) ∧ t.unchangedExcept s [.v, .pc])

/-- R79 ADD Vx, Vy: the sum mod 256, then VF = carry, so that VF holds the carry also when x = F. -/
def Obligations.AddRegSetsSumThenCarry : Prop :=
  (∀ x y : Reg, decode (u16 (0x8004 + 256 * x.val + 16 * y.val)) = .addReg x y) ∧
  ∀ (x y : Reg) (s : State), ∃ t, exec (.addReg x y) s = .next t ∧
    (∀ r, (t.getV r).toNat =
      if r = 15 then (if (s.getV x).toNat + (s.getV y).toNat > 255 then 1 else 0)
      else if r = x then ((s.getV x).toNat + (s.getV y).toNat) % 256
      else (s.getV r).toNat) ∧
    t.pc = u16 (s.pc.toNat + 2) ∧ t.unchangedExcept s [.v, .pc]

/-- R80 SUB Vx, Vy: the difference mod 256, then VF = 1 iff Vx > Vy, strictly. -/
def Obligations.SubSetsDifferenceThenFlag : Prop :=
  (∀ x y : Reg, decode (u16 (0x8005 + 256 * x.val + 16 * y.val)) = .sub x y) ∧
  ∀ (x y : Reg) (s : State), ∃ t, exec (.sub x y) s = .next t ∧
    (∀ r, (t.getV r).toNat =
      if r = 15 then (if (s.getV x).toNat > (s.getV y).toNat then 1 else 0)
      else if r = x then ((s.getV x).toNat + 256 - (s.getV y).toNat) % 256
      else (s.getV r).toNat) ∧
    t.pc = u16 (s.pc.toNat + 2) ∧ t.unchangedExcept s [.v, .pc]

/-- R81 SHR Vx: half of Vx, then VF = the bit shifted out; y is ignored. -/
def Obligations.ShrHalvesThenFlag : Prop :=
  (∀ x y : Reg, decode (u16 (0x8006 + 256 * x.val + 16 * y.val)) = .shr x) ∧
  ∀ (x : Reg) (s : State), ∃ t, exec (.shr x) s = .next t ∧
    (∀ r, (t.getV r).toNat =
      if r = 15 then (s.getV x).toNat % 2 else if r = x then (s.getV x).toNat / 2 else (s.getV r).toNat) ∧
    t.pc = u16 (s.pc.toNat + 2) ∧ t.unchangedExcept s [.v, .pc]

/-- R82 SUBN Vx, Vy: Vy - Vx mod 256, then VF = 1 iff Vy > Vx, strictly. -/
def Obligations.SubnSetsReversedDifferenceThenFlag : Prop :=
  (∀ x y : Reg, decode (u16 (0x8007 + 256 * x.val + 16 * y.val)) = .subn x y) ∧
  ∀ (x y : Reg) (s : State), ∃ t, exec (.subn x y) s = .next t ∧
    (∀ r, (t.getV r).toNat =
      if r = 15 then (if (s.getV y).toNat > (s.getV x).toNat then 1 else 0)
      else if r = x then ((s.getV y).toNat + 256 - (s.getV x).toNat) % 256
      else (s.getV r).toNat) ∧
    t.pc = u16 (s.pc.toNat + 2) ∧ t.unchangedExcept s [.v, .pc]

/-- R83 SHL Vx: twice Vx mod 256, then VF = old bit 7; y is ignored. -/
def Obligations.ShlDoublesThenFlag : Prop :=
  (∀ x y : Reg, decode (u16 (0x800E + 256 * x.val + 16 * y.val)) = .shl x) ∧
  ∀ (x : Reg) (s : State), ∃ t, exec (.shl x) s = .next t ∧
    (∀ r, (t.getV r).toNat =
      if r = 15 then (s.getV x).toNat / 128
      else if r = x then 2 * (s.getV x).toNat % 256
      else (s.getV r).toNat) ∧
    t.pc = u16 (s.pc.toNat + 2) ∧ t.unchangedExcept s [.v, .pc]

/-- RND Vx, nn: the random byte of this draw masked, one draw made. The random byte is the free value of log 6: the
statement holds whatever it is. -/
def Obligations.RndMasksOneDraw : Prop :=
  (∀ (x : Reg) (nn : Byte), decode (u16 (0xC000 + 256 * x.val + nn.toNat)) = .rnd x nn) ∧
  ∀ (x : Reg) (nn : Byte) (s : State), ∃ t, exec (.rnd x nn) s = .next t ∧
    (∀ r, t.getV r = if r = x then Config.randByte s.randDraws &&& nn else s.getV r) ∧
    t.randDraws = s.randDraws + 1 ∧ t.pc = u16 (s.pc.toNat + 2) ∧ t.unchangedExcept s [.v, .randDraws, .pc]

/-! ### Index register and memory (spec/42_index_memory.md) -/

/-- R85 LD I, nnn. -/
def Obligations.LdILoadsTheAddress : Prop :=
  (∀ nnn : Addr12, decode (u16 (0xA000 + nnn.toNat)) = .ldI nnn) ∧
  ∀ (nnn : Addr12) (s : State), ∃ t, exec (.ldI nnn) s = .next t ∧ t.i.toNat = nnn.toNat ∧
    t.pc = u16 (s.pc.toNat + 2) ∧ t.unchangedExcept s [.i, .pc]

/-- R86 ADD I, Vx: mod 65536, VF not written. -/
def Obligations.AddIWrapsWithNoFlag : Prop :=
  (∀ x : Reg, decode (u16 (0xF01E + 256 * x.val)) = .addI x) ∧
  ∀ (x : Reg) (s : State), ∃ t, exec (.addI x) s = .next t ∧
    t.i.toNat = (s.i.toNat + (s.getV x).toNat) % 65536 ∧
    t.pc = u16 (s.pc.toNat + 2) ∧ t.unchangedExcept s [.i, .pc]

/-- R87 LD F, Vx: FONT_BASE + 5 * Vx, Vx not masked. -/
def Obligations.LdFPointsAtTheGlyph : Prop :=
  (∀ x : Reg, decode (u16 (0xF029 + 256 * x.val)) = .ldF x) ∧
  ∀ (x : Reg) (s : State), ∃ t, exec (.ldF x) s = .next t ∧ t.i.toNat = 0x050 + 5 * (s.getV x).toNat ∧
    t.pc = u16 (s.pc.toNat + 2) ∧ t.unchangedExcept s [.i, .pc]

/-- R88 LD B, Vx: the three decimal digits at I, I+1, I+2, or a write fault at the lowest address outside memory. -/
def Obligations.LdBStoresTheDigits : Prop :=
  (∀ x : Reg, decode (u16 (0xF033 + 256 * x.val)) = .ldB x) ∧
  ∀ (x : Reg) (s : State), s.mem.wf →
    (s.i.toNat + 2 < 4096 → ∃ t, exec (.ldB x) s = .next t ∧
      (∀ a, (t.mem.read a).toNat =
        if a = s.i.toNat then (s.getV x).toNat / 100
        else if a = s.i.toNat + 1 then (s.getV x).toNat / 10 % 10
        else if a = s.i.toNat + 2 then (s.getV x).toNat % 10
        else (s.mem.read a).toNat) ∧
      t.pc = u16 (s.pc.toNat + 2) ∧ t.unchangedExcept s [.mem, .pc]) ∧
    (4096 ≤ s.i.toNat + 2 → exec (.ldB x) s = .next { s with
      fault := some ⟨.invalidMemoryAccess (BitVec.ofNat 17 (max s.i.toNat 4096)) .write, s.pc⟩ })

/-- R89 LD [I], Vx: V0..Vx at I..I+x, I unchanged, or a write fault with no byte written. -/
def Obligations.StoreRegsStoresTheBlock : Prop :=
  (∀ x : Reg, decode (u16 (0xF055 + 256 * x.val)) = .storeRegs x) ∧
  ∀ (x : Reg) (s : State), s.mem.wf →
    (s.i.toNat + x.val < 4096 → ∃ t, exec (.storeRegs x) s = .next t ∧
      (∀ k : Reg, k.val ≤ x.val → t.mem.read (s.i.toNat + k.val) = s.getV k) ∧
      (∀ a, a < s.i.toNat ∨ s.i.toNat + x.val < a → t.mem.read a = s.mem.read a) ∧
      t.pc = u16 (s.pc.toNat + 2) ∧ t.unchangedExcept s [.mem, .pc]) ∧
    (4096 ≤ s.i.toNat + x.val → exec (.storeRegs x) s = .next { s with
      fault := some ⟨.invalidMemoryAccess (BitVec.ofNat 17 (max s.i.toNat 4096)) .write, s.pc⟩ })

/-- R90 LD Vx, [I]: V0..Vx from I..I+x, the registers above x and I unchanged, or a read fault with none written. -/
def Obligations.LoadRegsLoadsTheBlock : Prop :=
  (∀ x : Reg, decode (u16 (0xF065 + 256 * x.val)) = .loadRegs x) ∧
  ∀ (x : Reg) (s : State),
    (s.i.toNat + x.val < 4096 → ∃ t, exec (.loadRegs x) s = .next t ∧
      (∀ k : Reg, t.getV k = if k.val ≤ x.val then s.mem.read (s.i.toNat + k.val) else s.getV k) ∧
      t.pc = u16 (s.pc.toNat + 2) ∧ t.unchangedExcept s [.v, .pc]) ∧
    (4096 ≤ s.i.toNat + x.val → exec (.loadRegs x) s = .next { s with
      fault := some ⟨.invalidMemoryAccess (BitVec.ofNat 17 (max s.i.toNat 4096)) .read, s.pc⟩ })

/-- A block stored and loaded again, with the memory and I of the store, gives the registers back. -/
def Obligations.LoadUndoesStore : Prop :=
  ∀ (x : Reg) (s : State), s.mem.wf → s.i.toNat + x.val < 4096 →
    ∃ t, exec (.storeRegs x) s = .next t ∧
      ∀ u : State, u.mem = t.mem → u.i = s.i →
        ∃ w, exec (.loadRegs x) u = .next w ∧ ∀ k : Reg, w.getV k = if k.val ≤ x.val then s.getV k else u.getV k

/-- Self-modifying code: a store over the next instruction's word is what the next step fetches and runs, with no fence
or other action. -/
def Obligations.StoredWordIsFetchedNext : Prop :=
  ∀ (x : Reg) (s : State), s.mem.wf → s.fault = none → s.hostMoves = [] → 1 ≤ x.val →
    s.i.toNat = s.pc.toNat + 2 → s.i.toNat + x.val < 4096 →
    ∃ t, exec (.storeRegs x) s = .next t ∧
      step t = exec (decode (u16 (256 * (s.getV 0).toNat + (s.getV 1).toNat))) t

/-! ### Framebuffer and sprites (spec/43_sprite.md) -/

/-- R94 CLS: every pixel 0, VF kept. -/
def Obligations.ClsClearsEveryPixel : Prop :=
  (∀ x : Reg, decode (u16 (0x00E0 + 256 * x.val)) = .cls) ∧
  ∀ s : State, ∃ t, exec .cls s = .next t ∧
    (∀ px py, Framebuffer.get t.fb px py = false) ∧ t.pc = u16 (s.pc.toNat + 2) ∧ t.unchangedExcept s [.fb, .pc]

/-- DRW Vx, Vy, n: exactly the pixels the wrapped sprite's set bits fall on are inverted, VF = 1 iff one of them was 1,
one present request is made; or a read fault with nothing drawn. `n = 0` draws nothing and clears VF. The request is
counted, which is the model's form of it (log 13). -/
def Obligations.DrwDrawsTheSprite : Prop :=
  (∀ (x y : Reg) (n : Nibble), decode (u16 (0xD000 + 256 * x.val + 16 * y.val + n.toNat)) = .drw x y n) ∧
  ∀ (x y : Reg) (n : Nibble) (s : State),
    (n.toNat = 0 ∨ s.i.toNat + n.toNat - 1 < 4096 → ∃ t, exec (.drw x y n) s = .next t ∧
      (∀ px py,
        (spriteSets s.mem s.i.toNat (s.getV x).toNat (s.getV y).toNat n.toNat px py →
          Framebuffer.get t.fb px py = !Framebuffer.get s.fb px py) ∧
        (¬ spriteSets s.mem s.i.toNat (s.getV x).toNat (s.getV y).toNat n.toNat px py →
          Framebuffer.get t.fb px py = Framebuffer.get s.fb px py)) ∧
      ((∃ px py, spriteSets s.mem s.i.toNat (s.getV x).toNat (s.getV y).toNat n.toNat px py ∧
          Framebuffer.get s.fb px py = true) → t.getV 15 = 1) ∧
      (¬ (∃ px py, spriteSets s.mem s.i.toNat (s.getV x).toNat (s.getV y).toNat n.toNat px py ∧
          Framebuffer.get s.fb px py = true) → t.getV 15 = 0) ∧
      (∀ r, r ≠ 15 → t.getV r = s.getV r) ∧
      t.presentRequests = s.presentRequests + 1 ∧ t.pc = u16 (s.pc.toNat + 2) ∧
      t.unchangedExcept s [.fb, .v, .presentRequests, .pc]) ∧
    (n.toNat ≠ 0 ∧ 4096 ≤ s.i.toNat + n.toNat - 1 → exec (.drw x y n) s = .next { s with
      fault := some ⟨.invalidMemoryAccess (BitVec.ofNat 17 (max s.i.toNat 4096)) .read, s.pc⟩ })

/-- The toggle law: drawing the same sprite at the same place twice restores the framebuffer, and the second draw
collides if some set bit of the sprite fell on a pixel that was 0 before the first. (The derived remark of R95 says "if
the sprite has any set bit"; its pseudocode, which is followed, does not give that where all those pixels were 1, log
18.) -/
def Obligations.SecondDrawRestoresTheFramebuffer : Prop :=
  ∀ (x y : Reg) (n : Nibble) (s : State), n.toNat = 0 ∨ s.i.toNat + n.toNat - 1 < 4096 →
    ∃ t, exec (.drw x y n) s = .next t ∧
      ∀ u : State, u.fb = t.fb → u.i = s.i → (∀ a, u.mem.read a = s.mem.read a) →
        u.getV x = s.getV x → u.getV y = s.getV y →
        ∃ w, exec (.drw x y n) u = .next w ∧ w.fb = s.fb ∧
          ((∃ r k, r < n.toNat ∧ k < 8 ∧ (s.mem.read (s.i.toNat + r)).getLsbD k = true ∧
              Framebuffer.get s.fb (wrapColumn ((s.getV x).toNat + (7 - k))) (wrapRow ((s.getV y).toNat + r)) = false) →
            w.getV 15 = 1)

/-! ### Keys and timers (spec/44_keys_timers.md) -/

/-- R96, R97: the key skips; an index above 15 faults. -/
def Obligations.KeySkipsTestTheKey : Prop :=
  (∀ x : Reg, decode (u16 (0xE09E + 256 * x.val)) = .skp x ∧ decode (u16 (0xE0A1 + 256 * x.val)) = .sknp x) ∧
  ∀ (x : Reg) (s : State),
    ((s.getV x).toNat ≤ 15 →
      (∃ t, exec (.skp x) s = .next t ∧
        t.pc = (if s.keys.getLsbD (s.getV x).toNat = true then u16 (s.pc.toNat + 4) else u16 (s.pc.toNat + 2)) ∧
        t.unchangedExcept s [.pc]) ∧
      (∃ t, exec (.sknp x) s = .next t ∧
        t.pc = (if s.keys.getLsbD (s.getV x).toNat = false then u16 (s.pc.toNat + 4) else u16 (s.pc.toNat + 2)) ∧
        t.unchangedExcept s [.pc])) ∧
    (15 < (s.getV x).toNat →
      exec (.skp x) s = .next { s with fault := some ⟨.keyIndexOutOfRange (s.getV x), s.pc⟩ } ∧
      exec (.sknp x) s = .next { s with fault := some ⟨.keyIndexOutOfRange (s.getV x), s.pc⟩ })

/-- R99 LD Vx, DT. -/
def Obligations.LdVxDtReadsTheTimer : Prop :=
  (∀ x : Reg, decode (u16 (0xF007 + 256 * x.val)) = .ldVxDt x) ∧
  ∀ (x : Reg) (s : State), ∃ t, exec (.ldVxDt x) s = .next t ∧
    (∀ r, t.getV r = if r = x then s.dt else s.getV r) ∧ t.pc = u16 (s.pc.toNat + 2) ∧ t.unchangedExcept s [.v, .pc]

/-- R100, R101: LD DT, Vx and LD ST, Vx; the other timer is unchanged. -/
def Obligations.TimerWritesSetOneTimer : Prop :=
  (∀ x : Reg, decode (u16 (0xF015 + 256 * x.val)) = .ldDtVx x ∧ decode (u16 (0xF018 + 256 * x.val)) = .ldStVx x) ∧
  ∀ (x : Reg) (s : State),
    (∃ t, exec (.ldDtVx x) s = .next t ∧ t.dt = s.getV x ∧ t.pc = u16 (s.pc.toNat + 2) ∧
      t.unchangedExcept s [.dt, .pc]) ∧
    (∃ t, exec (.ldStVx x) s = .next t ∧ t.st = s.getV x ∧ t.pc = u16 (s.pc.toNat + 2) ∧
      t.unchangedExcept s [.st, .pc])

/-- R102 LD Vx, K: with a key pressed, the lowest pressed index into Vx; with none, Wait: no state changes (log
9), and a batch that comes to the instruction ends at once, not counting it. -/
def Obligations.KeyWaitTakesTheLowestKey : Prop :=
  (∀ x : Reg, decode (u16 (0xF00A + 256 * x.val)) = .ldVxK x) ∧
  (∀ (x : Reg) (s : State),
    (s.keys ≠ 0 → ∃ t k, exec (.ldVxK x) s = .next t ∧ k < 16 ∧ s.keys.getLsbD k = true ∧
      (∀ j, j < k → s.keys.getLsbD j = false) ∧
      (∀ r, (t.getV r).toNat = if r = x then k else (s.getV r).toNat) ∧
      t.pc = u16 (s.pc.toNat + 2) ∧ t.unchangedExcept s [.v, .pc]) ∧
    (s.keys = 0 → exec (.ldVxK x) s = .next s)) ∧
  ∀ (x : Reg) (size : Nat) (between : List (List HostEvent)) (s : State), s.fault = none → s.pc.toNat + 1 < 4096 → s.keys = 0 → 1 ≤ size →
    decode (u16 (256 * (s.mem.read s.pc.toNat).toNat + (s.mem.read (s.pc.toNat + 1)).toNat)) = .ldVxK x →
    s.runBatch size between = { s with batch := ⟨.waiting, 0, true⟩ }

/-! ### Faults (spec/60_exceptions.md) -/

/-- A fault is precise: an instruction that leaves the latch set has changed nothing else, and the latch holds the
address of that instruction. -/
def Obligations.FaultsArePrecise : Prop :=
  ∀ (i : Instr) (s t : State), s.fault = none → exec i s = .next t → t.fault ≠ none →
    ∃ c, t = { s with fault := some ⟨c, s.pc⟩ }

/-- The codes, the information word and the access kind of each fault, as R104 numbers them, and code 0 for none. -/
def Obligations.FaultCodesAsNumbered : Prop :=
  (∀ a k, (FaultCause.invalidMemoryAccess a k).code = 1 ∧ (FaultCause.invalidMemoryAccess a k).info = a ∧
    (FaultCause.invalidMemoryAccess a k).kind = some k) ∧
  AccessKind.fetch.code = 0 ∧ AccessKind.read.code = 1 ∧ AccessKind.write.code = 2 ∧
  (∀ sp, (FaultCause.stackOverflow sp).code = 2 ∧ (FaultCause.stackOverflow sp).info.toNat = sp.val) ∧
  (FaultCause.stackUnderflow.code = 3 ∧ FaultCause.stackUnderflow.info = 0) ∧
  (∀ k, (FaultCause.keyIndexOutOfRange k).code = 4 ∧ (FaultCause.keyIndexOutOfRange k).info.toNat = k.toNat) ∧
  (∀ s : State, s.faultCode = 0 ↔ s.fault = none)

/-! ### Whole-machine rules -/

/-- Every instruction changes only the parts of the state that its rule names, and one without a fault check never
touches the latch. -/
def Obligations.EachInstructionWritesOnlyItsParts : Prop :=
  ∀ (i : Instr) (s t : State), exec i s = .next t → t.unchangedExcept s (mayWrite i)

/-- VF changes only by a flag writer or by an instruction whose destination is VF. -/
def Obligations.OnlyFlagWritersChangeVF : Prop :=
  ∀ (i : Instr) (s t : State), exec i s = .next t → t.getV 15 ≠ s.getV 15 → mayWriteVF i = true

/-- ST is read by no instruction: two states that differ only in ST run alike, and differ at most in ST after. -/
def Obligations.NoInstructionReadsST : Prop :=
  ∀ (i : Instr) (s t : State) (b : Byte), exec i s = .next t →
    exec i { s with st := b } = .next { t with st := match i with | .ldStVx _ => t.st | _ => b }

/-- KEYS is read by SKP, SKNP and LD Vx, K only. -/
def Obligations.OnlyKeyInstructionsReadKeys : Prop :=
  ∀ (i : Instr) (s t : State) (k : Word), exec i s = .next t →
    (∀ x, i ≠ .skp x ∧ i ≠ .sknp x ∧ i ≠ .ldVxK x) →
    exec i { s with keys := k } = .next { t with keys := k }

/-- THE MEMORY INVARIANT: every step, of the CORE or of the host, keeps memory in its canonical form below MEM_SIZE. -/
def Obligations.StepKeepsMemoryCanonical : Prop :=
  ∀ s t : State, s.mem.wf → step s = .next t → t.mem.wf

/-- THE LATCH INVARIANT: a latched fault goes on describing the state it stopped in, whatever the host does, until reset
clears it: PC is the faulting instruction's, and the recorded information is that of its cause. -/
def Obligations.StepKeepsLatchSound : Prop :=
  ∀ s t : State, s.latchSound → step s = .next t → t.latchSound

/-- S[0] is never written by a call: every step keeps it 0. -/
def Obligations.StepKeepsStackBottomZero : Prop :=
  ∀ s t : State, s.stack[0] = 0 → step s = .next t → t.stack[0] = 0

/-- The three invariants hold right after reset. -/
def Obligations.ResetMeetsTheInvariants : Prop :=
  State.reset.mem.wf ∧ State.reset.latchSound ∧ State.reset.stack[0] = 0
end

