-- ==== Sys2Proof/Laws/Decode.lean ====
section
/-! SUPPORT. The fields of a word as arithmetic on its number, so that decoding a word given by a formula is arithmetic
(spec/30_encoding.md R50). -/

namespace Sys2Proof

theorem toNat_fieldHeader (w : Word) : (fieldHeader w).toNat = w.toNat / 4096 := by
  have := w.isLt
  simp only [fieldHeader, BitVec.extractLsb'_toNat, Nat.shiftRight_eq_div_pow]
  omega

theorem val_fieldX (w : Word) : (fieldX w).val = w.toNat / 256 % 16 := by
  show (w.extractLsb' 8 4).toNat = _
  simp [BitVec.extractLsb'_toNat, Nat.shiftRight_eq_div_pow]

theorem val_fieldY (w : Word) : (fieldY w).val = w.toNat / 16 % 16 := by
  show (w.extractLsb' 4 4).toNat = _
  simp [BitVec.extractLsb'_toNat, Nat.shiftRight_eq_div_pow]

theorem toNat_fieldN (w : Word) : (fieldN w).toNat = w.toNat % 16 := by
  simp [fieldN, BitVec.extractLsb'_toNat]

theorem toNat_fieldNN (w : Word) : (fieldNN w).toNat = w.toNat % 256 := by
  simp [fieldNN, BitVec.extractLsb'_toNat]

theorem toNat_fieldNNN (w : Word) : (fieldNNN w).toNat = w.toNat % 4096 := by
  simp [fieldNNN, BitVec.extractLsb'_toNat]

/-! ### A field's value as an equation on the word's number -/

theorem fieldHeader_eq_iff {w : Word} {k : BitVec 4} : fieldHeader w = k ↔ w.toNat / 4096 = k.toNat := by
  rw [← BitVec.toNat_inj, toNat_fieldHeader]

theorem fieldX_eq_iff {w : Word} {k : Reg} : fieldX w = k ↔ w.toNat / 256 % 16 = k.val := by
  rw [Fin.ext_iff, val_fieldX]

theorem fieldY_eq_iff {w : Word} {k : Reg} : fieldY w = k ↔ w.toNat / 16 % 16 = k.val := by
  rw [Fin.ext_iff, val_fieldY]

theorem fieldN_eq_iff {w : Word} {k : Nibble} : fieldN w = k ↔ w.toNat % 16 = k.toNat := by
  rw [← BitVec.toNat_inj, toNat_fieldN]

theorem fieldNN_eq_iff {w : Word} {k : Byte} : fieldNN w = k ↔ w.toNat % 256 = k.toNat := by
  rw [← BitVec.toNat_inj, toNat_fieldNN]

theorem fieldNNN_eq_iff {w : Word} {k : Addr12} : fieldNNN w = k ↔ w.toNat % 4096 = k.toNat := by
  rw [← BitVec.toNat_inj, toNat_fieldNNN]

theorem toNat_regField (r : Reg) : (regField r).toNat = r.val := rfl

theorem toNat_packNNN (h : BitVec 4) (nnn : Addr12) : (packNNN h nnn).toNat = h.toNat * 4096 + nnn.toNat := by
  have := nnn.isLt
  rw [packNNN, BitVec.toNat_append, Nat.shiftLeft_eq, Nat.mul_comm,
    ← Nat.two_pow_add_eq_or_of_lt (i := 12) (by omega)]

theorem toNat_packXNN (h : BitVec 4) (x : Reg) (nn : Byte) :
    (packXNN h x nn).toNat = h.toNat * 4096 + x.val * 256 + nn.toNat := by
  have := nn.isLt
  have h2 : (regField x ++ nn : BitVec 12).toNat = x.val * 256 + nn.toNat := by
    rw [BitVec.toNat_append, toNat_regField, Nat.shiftLeft_eq, Nat.mul_comm,
      ← Nat.two_pow_add_eq_or_of_lt (i := 8) (by omega)]
  have := toNat_packNNN h (regField x ++ nn)
  simp only [packNNN] at this
  rw [packXNN, this, h2]
  omega

theorem toNat_packXYN (h : BitVec 4) (x y : Reg) (n : Nibble) :
    (packXYN h x y n).toNat = h.toNat * 4096 + x.val * 256 + y.val * 16 + n.toNat := by
  have := n.isLt
  have h2 : (regField y ++ n : Byte).toNat = y.val * 16 + n.toNat := by
    rw [BitVec.toNat_append, toNat_regField, Nat.shiftLeft_eq, Nat.mul_comm,
      ← Nat.two_pow_add_eq_or_of_lt (i := 4) (by omega)]
  have := toNat_packXNN h x (regField y ++ n)
  simp only [packXNN] at this
  rw [packXYN, this, h2]
  omega

/-- The two bytes of a word make the word again (spec/20_memory.md R37). -/
theorem wordOfBytes_bytesOfWord (w : Word) : wordOfBytes (bytesOfWord w).1 (bytesOfWord w).2 = w := by
  apply BitVec.eq_of_getLsbD_eq
  intro i hi
  simp only [wordOfBytes, bytesOfWord, BitVec.getLsbD_append, BitVec.getLsbD_extractLsb']
  split
  · rename_i h; simp [h]
  · rename_i h; simp [show i - 8 < 8 by omega, show 8 + (i - 8) = i by omega]

theorem toNat_wordOfBytes (hi lo : Byte) : (wordOfBytes hi lo).toNat = hi.toNat * 256 + lo.toNat := by
  have := lo.isLt
  rw [wordOfBytes, BitVec.toNat_append, Nat.shiftLeft_eq, Nat.mul_comm,
    ← Nat.two_pow_add_eq_or_of_lt (i := 8) (by omega)]

/-- The decoder reads a table word of 16 bits as `decode` does. -/
theorem decodeTableWord_eq (w : Word) : decodeTableWord 16 w.toNat = some (decode w) := by
  have h : tableWord 16 w.toNat = w := by
    rw [tableWord, Nat.mod_eq_of_lt w.isLt, BitVec.ofNat_toNat, BitVec.setWidth_eq]
  simp only [decodeTableWord, h, decodeBytes, wordOfBytes_bytesOfWord]

end Sys2Proof
end

