-- ==== Sys2Proof/Laws/Memory.lean ====
section
/-! SUPPORT. The laws of memory: read after write, the canonical form kept by every operation, and equality of canonical
memories that read alike (spec/20_memory.md R42). -/

namespace Sys2Proof.Machine

/-- Every listed address of `m` is above `k`. -/
abbrev Memory.above (m : Memory) (k : Nat) : Prop := ∀ c ∈ m, k < c.1

/-- Addresses strictly rising. -/
abbrev Memory.sorted (m : Memory) : Prop := m.Pairwise (fun c d => c.1 < d.1)

theorem Memory.read_of_above {m : Memory} {a : Nat} (h : m.above a) : m.read a = Memory.unlisted := by
  induction m with
  | nil => rfl
  | cons c rest ih =>
    have hc : a < c.1 := h c (List.mem_cons_self ..)
    have hr : Memory.above rest a := fun d hd => h d (List.mem_cons_of_mem _ hd)
    simp only [Memory.read, if_neg (Nat.ne_of_gt hc), ih hr]

theorem Memory.read_insert (m : Memory) (a : Nat) (b : Byte) (q : Nat) :
    (m.insert a b).read q = if a = q then b else m.read q := by
  induction m with
  | nil => simp [Memory.insert, Memory.read]
  | cons c rest ih =>
    obtain ⟨k, v⟩ := c
    simp only [Memory.insert]
    split
    · simp [Memory.read]
    · split
      · rename_i h
        subst h
        simp only [Memory.read]
        split <;> simp_all
      · rename_i h
        simp only [Memory.read, ih]
        by_cases hk : k = q
        · subst hk; simp [h]
        · simp [hk]

theorem Memory.read_erase {m : Memory} (hm : m.sorted) (a q : Nat) :
    (m.erase a).read q = if a = q then Memory.unlisted else m.read q := by
  induction m with
  | nil => simp [Memory.erase, Memory.read]
  | cons c rest ih =>
    obtain ⟨k, v⟩ := c
    have hrest : Memory.sorted rest := hm.of_cons
    have habove : Memory.above rest k := (List.pairwise_cons.mp hm).1
    simp only [Memory.erase]
    split
    · rename_i h
      subst h
      by_cases hq : k = q
      · subst hq; simp [Memory.read_of_above habove]
      · simp [Memory.read, hq]
    · rename_i h
      simp only [Memory.read, ih hrest]
      by_cases hk : k = q
      · subst hk; simp [Ne.symm h]
      · simp [hk]

/-- Reading after a write: the written byte at its address, the old byte elsewhere. -/
theorem Memory.read_write {m : Memory} (hm : m.sorted) (a : Nat) (b : Byte) (q : Nat) :
    (m.write a b).read q = if a = q then b else m.read q := by
  unfold Memory.write
  split
  · rename_i h; rw [Memory.read_erase hm, h]
  · exact Memory.read_insert m a b q

theorem Memory.mem_insert {m : Memory} {a : Nat} {b : Byte} {c : Host.Cell} (h : c ∈ m.insert a b) :
    c = (a, b) ∨ c ∈ m := by
  induction m with
  | nil => simpa [Memory.insert] using h
  | cons d rest ih =>
    obtain ⟨k, v⟩ := d
    simp only [Memory.insert] at h
    split at h
    · simpa using h
    · split at h
      · rcases List.mem_cons.mp h with h | h
        · exact .inl h
        · exact .inr (List.mem_cons_of_mem _ h)
      · rcases List.mem_cons.mp h with h | h
        · exact .inr (h ▸ List.mem_cons_self ..)
        · exact (ih h).imp id (List.mem_cons_of_mem _)

theorem Memory.mem_erase {m : Memory} {a : Nat} {c : Host.Cell} (h : c ∈ m.erase a) : c ∈ m := by
  induction m with
  | nil => simp [Memory.erase] at h
  | cons d rest ih =>
    obtain ⟨k, v⟩ := d
    simp only [Memory.erase] at h
    split at h
    · exact List.mem_cons_of_mem _ h
    · rcases List.mem_cons.mp h with h | h
      · exact h ▸ List.mem_cons_self ..
      · exact List.mem_cons_of_mem _ (ih h)

theorem Memory.sorted_insert {m : Memory} (hm : m.sorted) (a : Nat) (b : Byte) : (m.insert a b).sorted := by
  induction m with
  | nil => simp [Memory.insert]
  | cons d rest ih =>
    obtain ⟨k, v⟩ := d
    have habove : Memory.above rest k := (List.pairwise_cons.mp hm).1
    have hrest : Memory.sorted rest := hm.of_cons
    simp only [Memory.insert]
    split
    · rename_i h
      refine List.pairwise_cons.mpr ⟨fun c hc => ?_, hm⟩
      rcases List.mem_cons.mp hc with hc | hc
      · subst hc; exact h
      · exact Nat.lt_trans h (habove c hc)
    · split
      · rename_i h
        subst h
        exact List.pairwise_cons.mpr ⟨habove, hrest⟩
      · rename_i h1 h2
        refine List.pairwise_cons.mpr ⟨fun c hc => ?_, ih hrest⟩
        rcases Memory.mem_insert hc with hc | hc
        · subst hc; simp only; omega
        · exact habove c hc

theorem Memory.sorted_erase {m : Memory} (hm : m.sorted) (a : Nat) : (m.erase a).sorted := by
  induction m with
  | nil => simp [Memory.erase]
  | cons d rest ih =>
    obtain ⟨k, v⟩ := d
    have habove : Memory.above rest k := (List.pairwise_cons.mp hm).1
    have hrest : Memory.sorted rest := hm.of_cons
    simp only [Memory.erase]
    split
    · exact hrest
    · exact List.pairwise_cons.mpr ⟨fun c hc => habove c (Memory.mem_erase hc), ih hrest⟩

/-- A write below MEM_SIZE keeps the canonical form. -/
theorem Memory.wf_write {m : Memory} (hm : m.wf) {a : Nat} (ha : a < Config.memSize) (b : Byte) : (m.write a b).wf := by
  unfold Memory.write
  split
  · exact ⟨Memory.sorted_erase hm.1 a, fun c hc => hm.2 c (Memory.mem_erase hc)⟩
  · rename_i hb
    refine ⟨Memory.sorted_insert hm.1 a b, fun c hc => ?_⟩
    rcases Memory.mem_insert hc with hc | hc
    · subst hc; exact ⟨hb, ha⟩
    · exact hm.2 c hc

/-- A block write below MEM_SIZE keeps the canonical form. -/
theorem Memory.wf_writeBytes {m : Memory} (hm : m.wf) (bs : List Byte) {a : Nat}
    (ha : a + bs.length ≤ Config.memSize) : (m.writeBytes a bs).wf := by
  induction bs generalizing m a with
  | nil => exact hm
  | cons b rest ih =>
    simp only [List.length_cons] at ha
    exact ih (Memory.wf_write hm (by omega) b) (by omega)

/-- Placing a word keeps the canonical form. -/
theorem Memory.wf_placeWord {m : Memory} (hm : m.wf) (a : Nat) (w : Word) : (m.placeWord a w).wf := by
  unfold Memory.placeWord
  split
  · exact Memory.wf_write (Memory.wf_write hm (by omega) _) (by omega) _
  · exact hm

theorem Memory.sorted_write {m : Memory} (hm : m.sorted) (a : Nat) (b : Byte) : (m.write a b).sorted := by
  unfold Memory.write
  split
  · exact Memory.sorted_erase hm a
  · exact Memory.sorted_insert hm a b

/-- Reading after a block write: the k-th byte at `a + k`, the old byte outside the block. -/
theorem Memory.read_writeBytes {m : Memory} (hm : m.sorted) (bs : List Byte) (a q : Nat) :
    (m.writeBytes a bs).read q = if a ≤ q then bs.getD (q - a) (m.read q) else m.read q := by
  induction bs generalizing m a with
  | nil => simp [Memory.writeBytes]
  | cons b rest ih =>
    simp only [Memory.writeBytes, ih (Memory.sorted_write hm a b), Memory.read_write hm]
    by_cases h1 : a = q
    · subst h1; simp [show ¬ a + 1 ≤ a by omega]
    · by_cases h2 : a ≤ q
      · have h3 : a + 1 ≤ q := by omega
        have h4 : q - a = (q - (a + 1)) + 1 := by omega
        simp [h1, h2, h3, h4]
      · simp [h1, h2, show ¬ a + 1 ≤ q by omega]

@[simp] theorem Memory.length_readBytes (m : Memory) (a n : Nat) : (m.readBytes a n).length = n := by
  induction n generalizing a with
  | zero => rfl
  | succ n ih => simp [Memory.readBytes, ih]

/-- The k-th byte read from `a` is the byte at `a + k`. -/
theorem Memory.getElem_readBytes (m : Memory) (a n k : Nat) (h : k < (m.readBytes a n).length) :
    (m.readBytes a n)[k] = m.read (a + k) := by
  induction n generalizing a k with
  | zero => simp [Memory.readBytes] at h
  | succ n ih =>
    cases k with
    | zero => rfl
    | succ k =>
      simp only [Memory.readBytes, List.getElem_cons_succ]
      rw [ih]
      congr 1
      omega

/-- Memories in canonical form that read alike are equal data. -/
theorem Memory.ext_of_wf {m n : Memory} (hm : m.wf) (hn : n.wf) (h : ∀ a, m.read a = n.read a) : m = n := by
  induction m generalizing n with
  | nil =>
    cases n with
    | nil => rfl
    | cons d rest =>
      have := h d.1
      simp only [Memory.read, if_true] at this
      exact absurd this.symm (hn.2 d (List.mem_cons_self ..)).1
  | cons c rest ih =>
    obtain ⟨k, v⟩ := c
    have hc := hm.2 (k, v) (List.mem_cons_self ..)
    have hrest : Memory.wf rest := ⟨hm.1.of_cons, fun d hd => hm.2 d (List.mem_cons_of_mem _ hd)⟩
    have habove : Memory.above rest k := (List.pairwise_cons.mp hm.1).1
    cases n with
    | nil =>
      have := h k
      simp only [Memory.read, if_true] at this
      exact absurd this hc.1
    | cons d rest' =>
      obtain ⟨k', v'⟩ := d
      have hd := hn.2 (k', v') (List.mem_cons_self ..)
      have hrest' : Memory.wf rest' := ⟨hn.1.of_cons, fun d hd => hn.2 d (List.mem_cons_of_mem _ hd)⟩
      have habove' : Memory.above rest' k' := (List.pairwise_cons.mp hn.1).1
      have hk : k = k' := by
        rcases Nat.lt_trichotomy k k' with hlt | heq | hgt
        · have := h k
          simp only [Memory.read, if_true, if_neg (Nat.ne_of_gt hlt)] at this
          rw [Memory.read_of_above (fun e he => Nat.lt_trans hlt (habove' e he))] at this
          exact absurd this hc.1
        · exact heq
        · have := h k'
          simp only [Memory.read, if_true, if_neg (Nat.ne_of_gt hgt)] at this
          rw [Memory.read_of_above (fun e he => Nat.lt_trans hgt (habove e he))] at this
          exact absurd this.symm hd.1
      subst hk
      have hv : v = v' := by simpa [Memory.read] using h k
      subst hv
      refine congrArg ((k, v) :: ·) (ih hrest hrest' fun a => ?_)
      have := h a
      simp only [Memory.read] at this
      by_cases ha : k = a
      · subst ha; rw [Memory.read_of_above habove, Memory.read_of_above habove']
      · simpa [ha] using this

end Sys2Proof.Machine
end

