-- ==== Sys2Proof/Laws/State.lean ====
section
/-! SUPPORT. One lemma per field per update of State, so that no later proof unfolds a record update. -/

namespace Sys2Proof.Machine

variable (s : State)

/-! ### setV -/

@[simp] theorem State.setV_v (r : Reg) (b : Byte) : (s.setV r b).v = s.v.set r.val b := rfl
@[simp] theorem State.setV_i (r : Reg) (b : Byte) : (s.setV r b).i = s.i := rfl
@[simp] theorem State.setV_pc (r : Reg) (b : Byte) : (s.setV r b).pc = s.pc := rfl
@[simp] theorem State.setV_sp (r : Reg) (b : Byte) : (s.setV r b).sp = s.sp := rfl
@[simp] theorem State.setV_stack (r : Reg) (b : Byte) : (s.setV r b).stack = s.stack := rfl
@[simp] theorem State.setV_dt (r : Reg) (b : Byte) : (s.setV r b).dt = s.dt := rfl
@[simp] theorem State.setV_st (r : Reg) (b : Byte) : (s.setV r b).st = s.st := rfl
@[simp] theorem State.setV_fault (r : Reg) (b : Byte) : (s.setV r b).fault = s.fault := rfl
@[simp] theorem State.setV_mem (r : Reg) (b : Byte) : (s.setV r b).mem = s.mem := rfl
@[simp] theorem State.setV_fb (r : Reg) (b : Byte) : (s.setV r b).fb = s.fb := rfl
@[simp] theorem State.setV_keys (r : Reg) (b : Byte) : (s.setV r b).keys = s.keys := rfl
@[simp] theorem State.setV_presentRequests (r : Reg) (b : Byte) : (s.setV r b).presentRequests = s.presentRequests := rfl
@[simp] theorem State.setV_batch (r : Reg) (b : Byte) : (s.setV r b).batch = s.batch := rfl
@[simp] theorem State.setV_randDraws (r : Reg) (b : Byte) : (s.setV r b).randDraws = s.randDraws := rfl
@[simp] theorem State.setV_hostMoves (r : Reg) (b : Byte) : (s.setV r b).hostMoves = s.hostMoves := rfl

/-! ### setI -/

@[simp] theorem State.setI_v (a : Word) : (s.setI a).v = s.v := rfl
@[simp] theorem State.setI_i (a : Word) : (s.setI a).i = a := rfl
@[simp] theorem State.setI_pc (a : Word) : (s.setI a).pc = s.pc := rfl
@[simp] theorem State.setI_sp (a : Word) : (s.setI a).sp = s.sp := rfl
@[simp] theorem State.setI_stack (a : Word) : (s.setI a).stack = s.stack := rfl
@[simp] theorem State.setI_dt (a : Word) : (s.setI a).dt = s.dt := rfl
@[simp] theorem State.setI_st (a : Word) : (s.setI a).st = s.st := rfl
@[simp] theorem State.setI_fault (a : Word) : (s.setI a).fault = s.fault := rfl
@[simp] theorem State.setI_mem (a : Word) : (s.setI a).mem = s.mem := rfl
@[simp] theorem State.setI_fb (a : Word) : (s.setI a).fb = s.fb := rfl
@[simp] theorem State.setI_keys (a : Word) : (s.setI a).keys = s.keys := rfl
@[simp] theorem State.setI_presentRequests (a : Word) : (s.setI a).presentRequests = s.presentRequests := rfl
@[simp] theorem State.setI_batch (a : Word) : (s.setI a).batch = s.batch := rfl
@[simp] theorem State.setI_randDraws (a : Word) : (s.setI a).randDraws = s.randDraws := rfl
@[simp] theorem State.setI_hostMoves (a : Word) : (s.setI a).hostMoves = s.hostMoves := rfl
@[simp] theorem State.setI_getV (a : Word) (q : Reg) : (s.setI a).getV q = s.getV q := rfl

/-! ### setDT -/

@[simp] theorem State.setDT_v (b : Byte) : (s.setDT b).v = s.v := rfl
@[simp] theorem State.setDT_i (b : Byte) : (s.setDT b).i = s.i := rfl
@[simp] theorem State.setDT_pc (b : Byte) : (s.setDT b).pc = s.pc := rfl
@[simp] theorem State.setDT_sp (b : Byte) : (s.setDT b).sp = s.sp := rfl
@[simp] theorem State.setDT_stack (b : Byte) : (s.setDT b).stack = s.stack := rfl
@[simp] theorem State.setDT_dt (b : Byte) : (s.setDT b).dt = b := rfl
@[simp] theorem State.setDT_st (b : Byte) : (s.setDT b).st = s.st := rfl
@[simp] theorem State.setDT_fault (b : Byte) : (s.setDT b).fault = s.fault := rfl
@[simp] theorem State.setDT_mem (b : Byte) : (s.setDT b).mem = s.mem := rfl
@[simp] theorem State.setDT_fb (b : Byte) : (s.setDT b).fb = s.fb := rfl
@[simp] theorem State.setDT_keys (b : Byte) : (s.setDT b).keys = s.keys := rfl
@[simp] theorem State.setDT_presentRequests (b : Byte) : (s.setDT b).presentRequests = s.presentRequests := rfl
@[simp] theorem State.setDT_batch (b : Byte) : (s.setDT b).batch = s.batch := rfl
@[simp] theorem State.setDT_randDraws (b : Byte) : (s.setDT b).randDraws = s.randDraws := rfl
@[simp] theorem State.setDT_hostMoves (b : Byte) : (s.setDT b).hostMoves = s.hostMoves := rfl
@[simp] theorem State.setDT_getV (b : Byte) (q : Reg) : (s.setDT b).getV q = s.getV q := rfl

/-! ### setST -/

@[simp] theorem State.setST_v (b : Byte) : (s.setST b).v = s.v := rfl
@[simp] theorem State.setST_i (b : Byte) : (s.setST b).i = s.i := rfl
@[simp] theorem State.setST_pc (b : Byte) : (s.setST b).pc = s.pc := rfl
@[simp] theorem State.setST_sp (b : Byte) : (s.setST b).sp = s.sp := rfl
@[simp] theorem State.setST_stack (b : Byte) : (s.setST b).stack = s.stack := rfl
@[simp] theorem State.setST_dt (b : Byte) : (s.setST b).dt = s.dt := rfl
@[simp] theorem State.setST_st (b : Byte) : (s.setST b).st = b := rfl
@[simp] theorem State.setST_fault (b : Byte) : (s.setST b).fault = s.fault := rfl
@[simp] theorem State.setST_mem (b : Byte) : (s.setST b).mem = s.mem := rfl
@[simp] theorem State.setST_fb (b : Byte) : (s.setST b).fb = s.fb := rfl
@[simp] theorem State.setST_keys (b : Byte) : (s.setST b).keys = s.keys := rfl
@[simp] theorem State.setST_presentRequests (b : Byte) : (s.setST b).presentRequests = s.presentRequests := rfl
@[simp] theorem State.setST_batch (b : Byte) : (s.setST b).batch = s.batch := rfl
@[simp] theorem State.setST_randDraws (b : Byte) : (s.setST b).randDraws = s.randDraws := rfl
@[simp] theorem State.setST_hostMoves (b : Byte) : (s.setST b).hostMoves = s.hostMoves := rfl
@[simp] theorem State.setST_getV (b : Byte) (q : Reg) : (s.setST b).getV q = s.getV q := rfl

/-! ### setPC -/

@[simp] theorem State.setPC_v (a : Word) : (s.setPC a).v = s.v := rfl
@[simp] theorem State.setPC_i (a : Word) : (s.setPC a).i = s.i := rfl
@[simp] theorem State.setPC_pc (a : Word) : (s.setPC a).pc = a := rfl
@[simp] theorem State.setPC_sp (a : Word) : (s.setPC a).sp = s.sp := rfl
@[simp] theorem State.setPC_stack (a : Word) : (s.setPC a).stack = s.stack := rfl
@[simp] theorem State.setPC_dt (a : Word) : (s.setPC a).dt = s.dt := rfl
@[simp] theorem State.setPC_st (a : Word) : (s.setPC a).st = s.st := rfl
@[simp] theorem State.setPC_fault (a : Word) : (s.setPC a).fault = s.fault := rfl
@[simp] theorem State.setPC_mem (a : Word) : (s.setPC a).mem = s.mem := rfl
@[simp] theorem State.setPC_fb (a : Word) : (s.setPC a).fb = s.fb := rfl
@[simp] theorem State.setPC_keys (a : Word) : (s.setPC a).keys = s.keys := rfl
@[simp] theorem State.setPC_presentRequests (a : Word) : (s.setPC a).presentRequests = s.presentRequests := rfl
@[simp] theorem State.setPC_batch (a : Word) : (s.setPC a).batch = s.batch := rfl
@[simp] theorem State.setPC_randDraws (a : Word) : (s.setPC a).randDraws = s.randDraws := rfl
@[simp] theorem State.setPC_hostMoves (a : Word) : (s.setPC a).hostMoves = s.hostMoves := rfl
@[simp] theorem State.setPC_getV (a : Word) (q : Reg) : (s.setPC a).getV q = s.getV q := rfl

/-! ### advance -/

@[simp] theorem State.advance_v : (s.advance).v = s.v := rfl
@[simp] theorem State.advance_i : (s.advance).i = s.i := rfl
@[simp] theorem State.advance_pc : (s.advance).pc = s.pc + 2 := rfl
@[simp] theorem State.advance_sp : (s.advance).sp = s.sp := rfl
@[simp] theorem State.advance_stack : (s.advance).stack = s.stack := rfl
@[simp] theorem State.advance_dt : (s.advance).dt = s.dt := rfl
@[simp] theorem State.advance_st : (s.advance).st = s.st := rfl
@[simp] theorem State.advance_fault : (s.advance).fault = s.fault := rfl
@[simp] theorem State.advance_mem : (s.advance).mem = s.mem := rfl
@[simp] theorem State.advance_fb : (s.advance).fb = s.fb := rfl
@[simp] theorem State.advance_keys : (s.advance).keys = s.keys := rfl
@[simp] theorem State.advance_presentRequests : (s.advance).presentRequests = s.presentRequests := rfl
@[simp] theorem State.advance_batch : (s.advance).batch = s.batch := rfl
@[simp] theorem State.advance_randDraws : (s.advance).randDraws = s.randDraws := rfl
@[simp] theorem State.advance_hostMoves : (s.advance).hostMoves = s.hostMoves := rfl
@[simp] theorem State.advance_getV (q : Reg) : (s.advance).getV q = s.getV q := rfl

/-! ### storeBytes -/

@[simp] theorem State.storeBytes_v (a : Nat) (bs : List Byte) : (s.storeBytes a bs).v = s.v := rfl
@[simp] theorem State.storeBytes_i (a : Nat) (bs : List Byte) : (s.storeBytes a bs).i = s.i := rfl
@[simp] theorem State.storeBytes_pc (a : Nat) (bs : List Byte) : (s.storeBytes a bs).pc = s.pc := rfl
@[simp] theorem State.storeBytes_sp (a : Nat) (bs : List Byte) : (s.storeBytes a bs).sp = s.sp := rfl
@[simp] theorem State.storeBytes_stack (a : Nat) (bs : List Byte) : (s.storeBytes a bs).stack = s.stack := rfl
@[simp] theorem State.storeBytes_dt (a : Nat) (bs : List Byte) : (s.storeBytes a bs).dt = s.dt := rfl
@[simp] theorem State.storeBytes_st (a : Nat) (bs : List Byte) : (s.storeBytes a bs).st = s.st := rfl
@[simp] theorem State.storeBytes_fault (a : Nat) (bs : List Byte) : (s.storeBytes a bs).fault = s.fault := rfl
@[simp] theorem State.storeBytes_mem (a : Nat) (bs : List Byte) : (s.storeBytes a bs).mem = s.mem.writeBytes a bs := rfl
@[simp] theorem State.storeBytes_fb (a : Nat) (bs : List Byte) : (s.storeBytes a bs).fb = s.fb := rfl
@[simp] theorem State.storeBytes_keys (a : Nat) (bs : List Byte) : (s.storeBytes a bs).keys = s.keys := rfl
@[simp] theorem State.storeBytes_presentRequests (a : Nat) (bs : List Byte) : (s.storeBytes a bs).presentRequests = s.presentRequests := rfl
@[simp] theorem State.storeBytes_batch (a : Nat) (bs : List Byte) : (s.storeBytes a bs).batch = s.batch := rfl
@[simp] theorem State.storeBytes_randDraws (a : Nat) (bs : List Byte) : (s.storeBytes a bs).randDraws = s.randDraws := rfl
@[simp] theorem State.storeBytes_hostMoves (a : Nat) (bs : List Byte) : (s.storeBytes a bs).hostMoves = s.hostMoves := rfl
@[simp] theorem State.storeBytes_getV (a : Nat) (bs : List Byte) (q : Reg) : (s.storeBytes a bs).getV q = s.getV q := rfl

/-! ### raise -/

@[simp] theorem State.raise_v (c : FaultCause) : (s.raise c).v = s.v := rfl
@[simp] theorem State.raise_i (c : FaultCause) : (s.raise c).i = s.i := rfl
@[simp] theorem State.raise_pc (c : FaultCause) : (s.raise c).pc = s.pc := rfl
@[simp] theorem State.raise_sp (c : FaultCause) : (s.raise c).sp = s.sp := rfl
@[simp] theorem State.raise_stack (c : FaultCause) : (s.raise c).stack = s.stack := rfl
@[simp] theorem State.raise_dt (c : FaultCause) : (s.raise c).dt = s.dt := rfl
@[simp] theorem State.raise_st (c : FaultCause) : (s.raise c).st = s.st := rfl
@[simp] theorem State.raise_fault (c : FaultCause) : (s.raise c).fault = some (FaultLatch.mk c s.pc) := rfl
@[simp] theorem State.raise_mem (c : FaultCause) : (s.raise c).mem = s.mem := rfl
@[simp] theorem State.raise_fb (c : FaultCause) : (s.raise c).fb = s.fb := rfl
@[simp] theorem State.raise_keys (c : FaultCause) : (s.raise c).keys = s.keys := rfl
@[simp] theorem State.raise_presentRequests (c : FaultCause) : (s.raise c).presentRequests = s.presentRequests := rfl
@[simp] theorem State.raise_batch (c : FaultCause) : (s.raise c).batch = s.batch := rfl
@[simp] theorem State.raise_randDraws (c : FaultCause) : (s.raise c).randDraws = s.randDraws := rfl
@[simp] theorem State.raise_hostMoves (c : FaultCause) : (s.raise c).hostMoves = s.hostMoves := rfl
@[simp] theorem State.raise_getV (c : FaultCause) (q : Reg) : (s.raise c).getV q = s.getV q := rfl

/-! ### push -/

@[simp] theorem State.push_v (a : Word) : (s.push a).v = s.v := rfl
@[simp] theorem State.push_i (a : Word) : (s.push a).i = s.i := rfl
@[simp] theorem State.push_pc (a : Word) : (s.push a).pc = s.pc := rfl
@[simp] theorem State.push_sp (a : Word) : (s.push a).sp = s.sp + 1 := rfl
@[simp] theorem State.push_stack (a : Word) : (s.push a).stack = s.stack.set (s.sp + 1).val a := rfl
@[simp] theorem State.push_dt (a : Word) : (s.push a).dt = s.dt := rfl
@[simp] theorem State.push_st (a : Word) : (s.push a).st = s.st := rfl
@[simp] theorem State.push_fault (a : Word) : (s.push a).fault = s.fault := rfl
@[simp] theorem State.push_mem (a : Word) : (s.push a).mem = s.mem := rfl
@[simp] theorem State.push_fb (a : Word) : (s.push a).fb = s.fb := rfl
@[simp] theorem State.push_keys (a : Word) : (s.push a).keys = s.keys := rfl
@[simp] theorem State.push_presentRequests (a : Word) : (s.push a).presentRequests = s.presentRequests := rfl
@[simp] theorem State.push_batch (a : Word) : (s.push a).batch = s.batch := rfl
@[simp] theorem State.push_randDraws (a : Word) : (s.push a).randDraws = s.randDraws := rfl
@[simp] theorem State.push_hostMoves (a : Word) : (s.push a).hostMoves = s.hostMoves := rfl
@[simp] theorem State.push_getV (a : Word) (q : Reg) : (s.push a).getV q = s.getV q := rfl

/-! ### pop -/

@[simp] theorem State.pop_v : (s.pop).v = s.v := rfl
@[simp] theorem State.pop_i : (s.pop).i = s.i := rfl
@[simp] theorem State.pop_pc : (s.pop).pc = s.pc := rfl
@[simp] theorem State.pop_sp : (s.pop).sp = s.sp - 1 := rfl
@[simp] theorem State.pop_stack : (s.pop).stack = s.stack := rfl
@[simp] theorem State.pop_dt : (s.pop).dt = s.dt := rfl
@[simp] theorem State.pop_st : (s.pop).st = s.st := rfl
@[simp] theorem State.pop_fault : (s.pop).fault = s.fault := rfl
@[simp] theorem State.pop_mem : (s.pop).mem = s.mem := rfl
@[simp] theorem State.pop_fb : (s.pop).fb = s.fb := rfl
@[simp] theorem State.pop_keys : (s.pop).keys = s.keys := rfl
@[simp] theorem State.pop_presentRequests : (s.pop).presentRequests = s.presentRequests := rfl
@[simp] theorem State.pop_batch : (s.pop).batch = s.batch := rfl
@[simp] theorem State.pop_randDraws : (s.pop).randDraws = s.randDraws := rfl
@[simp] theorem State.pop_hostMoves : (s.pop).hostMoves = s.hostMoves := rfl
@[simp] theorem State.pop_getV (q : Reg) : (s.pop).getV q = s.getV q := rfl

/-! ### setFB -/

@[simp] theorem State.setFB_v (g : Framebuffer) : (s.setFB g).v = s.v := rfl
@[simp] theorem State.setFB_i (g : Framebuffer) : (s.setFB g).i = s.i := rfl
@[simp] theorem State.setFB_pc (g : Framebuffer) : (s.setFB g).pc = s.pc := rfl
@[simp] theorem State.setFB_sp (g : Framebuffer) : (s.setFB g).sp = s.sp := rfl
@[simp] theorem State.setFB_stack (g : Framebuffer) : (s.setFB g).stack = s.stack := rfl
@[simp] theorem State.setFB_dt (g : Framebuffer) : (s.setFB g).dt = s.dt := rfl
@[simp] theorem State.setFB_st (g : Framebuffer) : (s.setFB g).st = s.st := rfl
@[simp] theorem State.setFB_fault (g : Framebuffer) : (s.setFB g).fault = s.fault := rfl
@[simp] theorem State.setFB_mem (g : Framebuffer) : (s.setFB g).mem = s.mem := rfl
@[simp] theorem State.setFB_fb (g : Framebuffer) : (s.setFB g).fb = g := rfl
@[simp] theorem State.setFB_keys (g : Framebuffer) : (s.setFB g).keys = s.keys := rfl
@[simp] theorem State.setFB_presentRequests (g : Framebuffer) : (s.setFB g).presentRequests = s.presentRequests := rfl
@[simp] theorem State.setFB_batch (g : Framebuffer) : (s.setFB g).batch = s.batch := rfl
@[simp] theorem State.setFB_randDraws (g : Framebuffer) : (s.setFB g).randDraws = s.randDraws := rfl
@[simp] theorem State.setFB_hostMoves (g : Framebuffer) : (s.setFB g).hostMoves = s.hostMoves := rfl
@[simp] theorem State.setFB_getV (g : Framebuffer) (q : Reg) : (s.setFB g).getV q = s.getV q := rfl

/-! ### requestPresent -/

@[simp] theorem State.requestPresent_v : (s.requestPresent).v = s.v := rfl
@[simp] theorem State.requestPresent_i : (s.requestPresent).i = s.i := rfl
@[simp] theorem State.requestPresent_pc : (s.requestPresent).pc = s.pc := rfl
@[simp] theorem State.requestPresent_sp : (s.requestPresent).sp = s.sp := rfl
@[simp] theorem State.requestPresent_stack : (s.requestPresent).stack = s.stack := rfl
@[simp] theorem State.requestPresent_dt : (s.requestPresent).dt = s.dt := rfl
@[simp] theorem State.requestPresent_st : (s.requestPresent).st = s.st := rfl
@[simp] theorem State.requestPresent_fault : (s.requestPresent).fault = s.fault := rfl
@[simp] theorem State.requestPresent_mem : (s.requestPresent).mem = s.mem := rfl
@[simp] theorem State.requestPresent_fb : (s.requestPresent).fb = s.fb := rfl
@[simp] theorem State.requestPresent_keys : (s.requestPresent).keys = s.keys := rfl
@[simp] theorem State.requestPresent_presentRequests : (s.requestPresent).presentRequests = s.presentRequests + 1 := rfl
@[simp] theorem State.requestPresent_batch : (s.requestPresent).batch = s.batch := rfl
@[simp] theorem State.requestPresent_randDraws : (s.requestPresent).randDraws = s.randDraws := rfl
@[simp] theorem State.requestPresent_hostMoves : (s.requestPresent).hostMoves = s.hostMoves := rfl
@[simp] theorem State.requestPresent_getV (q : Reg) : (s.requestPresent).getV q = s.getV q := rfl

/-! ### drawn -/

@[simp] theorem State.drawn_v : (s.drawn).v = s.v := rfl
@[simp] theorem State.drawn_i : (s.drawn).i = s.i := rfl
@[simp] theorem State.drawn_pc : (s.drawn).pc = s.pc := rfl
@[simp] theorem State.drawn_sp : (s.drawn).sp = s.sp := rfl
@[simp] theorem State.drawn_stack : (s.drawn).stack = s.stack := rfl
@[simp] theorem State.drawn_dt : (s.drawn).dt = s.dt := rfl
@[simp] theorem State.drawn_st : (s.drawn).st = s.st := rfl
@[simp] theorem State.drawn_fault : (s.drawn).fault = s.fault := rfl
@[simp] theorem State.drawn_mem : (s.drawn).mem = s.mem := rfl
@[simp] theorem State.drawn_fb : (s.drawn).fb = s.fb := rfl
@[simp] theorem State.drawn_keys : (s.drawn).keys = s.keys := rfl
@[simp] theorem State.drawn_presentRequests : (s.drawn).presentRequests = s.presentRequests := rfl
@[simp] theorem State.drawn_batch : (s.drawn).batch = s.batch := rfl
@[simp] theorem State.drawn_randDraws : (s.drawn).randDraws = s.randDraws + 1 := rfl
@[simp] theorem State.drawn_hostMoves : (s.drawn).hostMoves = s.hostMoves := rfl
@[simp] theorem State.drawn_getV (q : Reg) : (s.drawn).getV q = s.getV q := rfl

/-! ### setResultAndFlag -/

@[simp] theorem State.setResultAndFlag_i (x : Reg) (b : Byte) (f : Bool) : (s.setResultAndFlag x b f).i = s.i := rfl
@[simp] theorem State.setResultAndFlag_pc (x : Reg) (b : Byte) (f : Bool) : (s.setResultAndFlag x b f).pc = s.pc := rfl
@[simp] theorem State.setResultAndFlag_sp (x : Reg) (b : Byte) (f : Bool) : (s.setResultAndFlag x b f).sp = s.sp := rfl
@[simp] theorem State.setResultAndFlag_stack (x : Reg) (b : Byte) (f : Bool) : (s.setResultAndFlag x b f).stack = s.stack := rfl
@[simp] theorem State.setResultAndFlag_dt (x : Reg) (b : Byte) (f : Bool) : (s.setResultAndFlag x b f).dt = s.dt := rfl
@[simp] theorem State.setResultAndFlag_st (x : Reg) (b : Byte) (f : Bool) : (s.setResultAndFlag x b f).st = s.st := rfl
@[simp] theorem State.setResultAndFlag_fault (x : Reg) (b : Byte) (f : Bool) : (s.setResultAndFlag x b f).fault = s.fault := rfl
@[simp] theorem State.setResultAndFlag_mem (x : Reg) (b : Byte) (f : Bool) : (s.setResultAndFlag x b f).mem = s.mem := rfl
@[simp] theorem State.setResultAndFlag_fb (x : Reg) (b : Byte) (f : Bool) : (s.setResultAndFlag x b f).fb = s.fb := rfl
@[simp] theorem State.setResultAndFlag_keys (x : Reg) (b : Byte) (f : Bool) : (s.setResultAndFlag x b f).keys = s.keys := rfl
@[simp] theorem State.setResultAndFlag_presentRequests (x : Reg) (b : Byte) (f : Bool) : (s.setResultAndFlag x b f).presentRequests = s.presentRequests := rfl
@[simp] theorem State.setResultAndFlag_batch (x : Reg) (b : Byte) (f : Bool) : (s.setResultAndFlag x b f).batch = s.batch := rfl
@[simp] theorem State.setResultAndFlag_randDraws (x : Reg) (b : Byte) (f : Bool) : (s.setResultAndFlag x b f).randDraws = s.randDraws := rfl
@[simp] theorem State.setResultAndFlag_hostMoves (x : Reg) (b : Byte) (f : Bool) : (s.setResultAndFlag x b f).hostMoves = s.hostMoves := rfl

/-! ### loadBlock -/

@[simp] theorem State.loadBlock_i (x : Reg) (a : Nat) : (s.loadBlock x a).i = s.i := rfl
@[simp] theorem State.loadBlock_pc (x : Reg) (a : Nat) : (s.loadBlock x a).pc = s.pc := rfl
@[simp] theorem State.loadBlock_sp (x : Reg) (a : Nat) : (s.loadBlock x a).sp = s.sp := rfl
@[simp] theorem State.loadBlock_stack (x : Reg) (a : Nat) : (s.loadBlock x a).stack = s.stack := rfl
@[simp] theorem State.loadBlock_dt (x : Reg) (a : Nat) : (s.loadBlock x a).dt = s.dt := rfl
@[simp] theorem State.loadBlock_st (x : Reg) (a : Nat) : (s.loadBlock x a).st = s.st := rfl
@[simp] theorem State.loadBlock_fault (x : Reg) (a : Nat) : (s.loadBlock x a).fault = s.fault := rfl
@[simp] theorem State.loadBlock_mem (x : Reg) (a : Nat) : (s.loadBlock x a).mem = s.mem := rfl
@[simp] theorem State.loadBlock_fb (x : Reg) (a : Nat) : (s.loadBlock x a).fb = s.fb := rfl
@[simp] theorem State.loadBlock_keys (x : Reg) (a : Nat) : (s.loadBlock x a).keys = s.keys := rfl
@[simp] theorem State.loadBlock_presentRequests (x : Reg) (a : Nat) : (s.loadBlock x a).presentRequests = s.presentRequests := rfl
@[simp] theorem State.loadBlock_batch (x : Reg) (a : Nat) : (s.loadBlock x a).batch = s.batch := rfl
@[simp] theorem State.loadBlock_randDraws (x : Reg) (a : Nat) : (s.loadBlock x a).randDraws = s.randDraws := rfl
@[simp] theorem State.loadBlock_hostMoves (x : Reg) (a : Nat) : (s.loadBlock x a).hostMoves = s.hostMoves := rfl

/-! ### drawSprite -/

@[simp] theorem State.drawSprite_i (ox oy : Nat) (rows : List Byte) : (s.drawSprite ox oy rows).i = s.i := rfl
@[simp] theorem State.drawSprite_pc (ox oy : Nat) (rows : List Byte) : (s.drawSprite ox oy rows).pc = s.pc := rfl
@[simp] theorem State.drawSprite_sp (ox oy : Nat) (rows : List Byte) : (s.drawSprite ox oy rows).sp = s.sp := rfl
@[simp] theorem State.drawSprite_stack (ox oy : Nat) (rows : List Byte) : (s.drawSprite ox oy rows).stack = s.stack := rfl
@[simp] theorem State.drawSprite_dt (ox oy : Nat) (rows : List Byte) : (s.drawSprite ox oy rows).dt = s.dt := rfl
@[simp] theorem State.drawSprite_st (ox oy : Nat) (rows : List Byte) : (s.drawSprite ox oy rows).st = s.st := rfl
@[simp] theorem State.drawSprite_fault (ox oy : Nat) (rows : List Byte) : (s.drawSprite ox oy rows).fault = s.fault := rfl
@[simp] theorem State.drawSprite_mem (ox oy : Nat) (rows : List Byte) : (s.drawSprite ox oy rows).mem = s.mem := rfl
@[simp] theorem State.drawSprite_fb (ox oy : Nat) (rows : List Byte) : (s.drawSprite ox oy rows).fb = (blitRows ox oy rows (s.fb, false)).1 := rfl
@[simp] theorem State.drawSprite_keys (ox oy : Nat) (rows : List Byte) : (s.drawSprite ox oy rows).keys = s.keys := rfl
@[simp] theorem State.drawSprite_presentRequests (ox oy : Nat) (rows : List Byte) : (s.drawSprite ox oy rows).presentRequests = s.presentRequests + 1 := rfl
@[simp] theorem State.drawSprite_batch (ox oy : Nat) (rows : List Byte) : (s.drawSprite ox oy rows).batch = s.batch := rfl
@[simp] theorem State.drawSprite_randDraws (ox oy : Nat) (rows : List Byte) : (s.drawSprite ox oy rows).randDraws = s.randDraws := rfl
@[simp] theorem State.drawSprite_hostMoves (ox oy : Nat) (rows : List Byte) : (s.drawSprite ox oy rows).hostMoves = s.hostMoves := rfl

/-! ### tick -/

@[simp] theorem State.tick_v : (s.tick).v = s.v := rfl
@[simp] theorem State.tick_i : (s.tick).i = s.i := rfl
@[simp] theorem State.tick_pc : (s.tick).pc = s.pc := rfl
@[simp] theorem State.tick_sp : (s.tick).sp = s.sp := rfl
@[simp] theorem State.tick_stack : (s.tick).stack = s.stack := rfl
@[simp] theorem State.tick_dt : (s.tick).dt = countDown s.dt := rfl
@[simp] theorem State.tick_st : (s.tick).st = countDown s.st := rfl
@[simp] theorem State.tick_fault : (s.tick).fault = s.fault := rfl
@[simp] theorem State.tick_mem : (s.tick).mem = s.mem := rfl
@[simp] theorem State.tick_fb : (s.tick).fb = s.fb := rfl
@[simp] theorem State.tick_keys : (s.tick).keys = s.keys := rfl
@[simp] theorem State.tick_presentRequests : (s.tick).presentRequests = s.presentRequests := rfl
@[simp] theorem State.tick_batch : (s.tick).batch = s.batch := rfl
@[simp] theorem State.tick_randDraws : (s.tick).randDraws = s.randDraws := rfl
@[simp] theorem State.tick_hostMoves : (s.tick).hostMoves = s.hostMoves := rfl
@[simp] theorem State.tick_getV (q : Reg) : (s.tick).getV q = s.getV q := rfl

/-! ### hostReset -/

@[simp] theorem State.hostReset_v : (s.hostReset).v = Vector.replicate 16 0 := rfl
@[simp] theorem State.hostReset_i : (s.hostReset).i = 0 := rfl
@[simp] theorem State.hostReset_pc : (s.hostReset).pc = Config.loadAddr := rfl
@[simp] theorem State.hostReset_sp : (s.hostReset).sp = 0 := rfl
@[simp] theorem State.hostReset_stack : (s.hostReset).stack = Vector.replicate Config.stackDepth 0 := rfl
@[simp] theorem State.hostReset_dt : (s.hostReset).dt = 0 := rfl
@[simp] theorem State.hostReset_st : (s.hostReset).st = 0 := rfl
@[simp] theorem State.hostReset_fault : (s.hostReset).fault = none := rfl
@[simp] theorem State.hostReset_mem : (s.hostReset).mem = s.mem := rfl
@[simp] theorem State.hostReset_fb : (s.hostReset).fb = s.fb := rfl
@[simp] theorem State.hostReset_keys : (s.hostReset).keys = s.keys := rfl
@[simp] theorem State.hostReset_presentRequests : (s.hostReset).presentRequests = s.presentRequests := rfl
@[simp] theorem State.hostReset_batch : (s.hostReset).batch = s.batch := rfl
@[simp] theorem State.hostReset_randDraws : (s.hostReset).randDraws = s.randDraws := rfl
@[simp] theorem State.hostReset_hostMoves : (s.hostReset).hostMoves = s.hostMoves := rfl

/-! ### skipIf -/

theorem State.skipIf_eq (c : Bool) : s.skipIf c = s.setPC (s.pc + if c then 4 else 2) := by
  cases c <;> rfl
@[simp] theorem State.skipIf_v (c : Bool) : (s.skipIf c).v = s.v := by cases c <;> rfl
@[simp] theorem State.skipIf_i (c : Bool) : (s.skipIf c).i = s.i := by cases c <;> rfl
@[simp] theorem State.skipIf_pc (c : Bool) : (s.skipIf c).pc = s.pc + if c then 4 else 2 := by cases c <;> rfl
@[simp] theorem State.skipIf_sp (c : Bool) : (s.skipIf c).sp = s.sp := by cases c <;> rfl
@[simp] theorem State.skipIf_stack (c : Bool) : (s.skipIf c).stack = s.stack := by cases c <;> rfl
@[simp] theorem State.skipIf_dt (c : Bool) : (s.skipIf c).dt = s.dt := by cases c <;> rfl
@[simp] theorem State.skipIf_st (c : Bool) : (s.skipIf c).st = s.st := by cases c <;> rfl
@[simp] theorem State.skipIf_fault (c : Bool) : (s.skipIf c).fault = s.fault := by cases c <;> rfl
@[simp] theorem State.skipIf_mem (c : Bool) : (s.skipIf c).mem = s.mem := by cases c <;> rfl
@[simp] theorem State.skipIf_fb (c : Bool) : (s.skipIf c).fb = s.fb := by cases c <;> rfl
@[simp] theorem State.skipIf_keys (c : Bool) : (s.skipIf c).keys = s.keys := by cases c <;> rfl
@[simp] theorem State.skipIf_presentRequests (c : Bool) : (s.skipIf c).presentRequests = s.presentRequests := by cases c <;> rfl
@[simp] theorem State.skipIf_batch (c : Bool) : (s.skipIf c).batch = s.batch := by cases c <;> rfl
@[simp] theorem State.skipIf_randDraws (c : Bool) : (s.skipIf c).randDraws = s.randDraws := by cases c <;> rfl
@[simp] theorem State.skipIf_hostMoves (c : Bool) : (s.skipIf c).hostMoves = s.hostMoves := by cases c <;> rfl
@[simp] theorem State.skipIf_getV (c : Bool) (q : Reg) : (s.skipIf c).getV q = s.getV q := by cases c <;> rfl

/-! ### Reading a register after a write -/

@[simp] theorem State.getV_setV (r q : Reg) (b : Byte) :
    (s.setV r b).getV q = if r = q then b else s.getV q := by
  simp only [State.getV, State.setV, Vector.getElem_set, Fin.ext_iff]

@[simp] theorem State.getV_setResultAndFlag (x q : Reg) (b : Byte) (f : Bool) :
    (s.setResultAndFlag x b f).getV q = if Reg.vF = q then flagByte f else if x = q then b else s.getV q := by
  simp only [State.setResultAndFlag, State.getV_setV]

@[simp] theorem State.getV_loadBlock (x q : Reg) (a : Nat) :
    (s.loadBlock x a).getV q = if q.val ≤ x.val then s.mem.read (a + q.val) else s.getV q := by
  simp [State.getV, State.loadBlock]

@[simp] theorem State.getV_drawSprite (ox oy : Nat) (rows : List Byte) (q : Reg) :
    (s.drawSprite ox oy rows).getV q =
      if Reg.vF = q then flagByte (blitRows ox oy rows (s.fb, false)).2 else s.getV q := by
  simp only [State.drawSprite, State.requestPresent_getV, State.getV_setV]
  rfl

@[simp] theorem State.getV_hostReset (q : Reg) : s.hostReset.getV q = 0 := by
  simp [State.getV]

/-- Two register files that read alike are equal. -/
theorem State.v_ext (t : State) (h : ∀ r, s.getV r = t.getV r) : s.v = t.v :=
  Vector.ext fun k hk => h ⟨k, hk⟩

end Sys2Proof.Machine
end

