-- ==== Sys2Proof/Laws/Ops.lean ====
section
/-! SUPPORT. What each shared operation can do, said once: the checks, fault entry, operand forms, results and flags. -/

namespace Sys2Proof.Machine

/-! ### Fault entry and the checks -/

@[simp] theorem State.orRaise_none (s s' : State) : s.orRaise none s' = s' := rfl

@[simp] theorem State.orRaise_some (s s' : State) (c : FaultCause) : s.orRaise (some c) s' = s.raise c := rfl

theorem rangeFault_eq_none (base n : Nat) (kind : AccessKind) :
    rangeFault base n kind = none ↔ n = 0 ∨ base + n ≤ Config.memSize := by
  unfold rangeFault
  split <;> simp <;> omega

theorem rangeFault_eq_some {base n : Nat} {kind : AccessKind} {c : FaultCause} (h : rangeFault base n kind = some c) :
    0 < n ∧ Config.memSize < base + n ∧
      c = .invalidMemoryAccess (BitVec.ofNat 17 (max base Config.memSize)) kind := by
  unfold rangeFault at h
  split at h
  · rename_i hc; exact ⟨hc.1, hc.2, (Option.some.inj h).symm⟩
  · simp at h

theorem rangeFault_of_fits {base n : Nat} {kind : AccessKind} (h : base + n ≤ Config.memSize) :
    rangeFault base n kind = none := (rangeFault_eq_none base n kind).mpr (.inr h)

theorem rangeFault_of_exceeds {base n : Nat} {kind : AccessKind} (hn : 0 < n) (h : Config.memSize < base + n) :
    rangeFault base n kind = some (.invalidMemoryAccess (BitVec.ofNat 17 (max base Config.memSize)) kind) := by
  unfold rangeFault
  exact if_pos ⟨hn, h⟩

/-- The recorded address fits the 17 bits of the latch. -/
theorem toNat_faultAddr (a : Word) : (BitVec.ofNat 17 (max a.toNat Config.memSize)).toNat = max a.toNat Config.memSize := by
  have := a.isLt
  rw [BitVec.toNat_ofNat, Nat.mod_eq_of_lt]
  simp only [Config.memSize, Nat.reducePow] at *
  omega

theorem State.overflowFault_eq (s : State) :
    s.overflowFault = if s.sp.val = 15 then some (.stackOverflow s.sp) else none := by
  unfold State.overflowFault
  simp only [Config.stackDepth, Nat.reduceEqDiff]

theorem State.underflowFault_eq (s : State) :
    s.underflowFault = if s.sp.val = 0 then some .stackUnderflow else none := rfl

theorem keyIndexFault_eq (k : Byte) :
    keyIndexFault k = if 15 < k.toNat then some (.keyIndexOutOfRange k) else none := rfl

/-- SP after a push, below the top of the stack. -/
theorem sp_add_one (sp : Fin Config.stackDepth) (h : sp.val ≠ 15) : (sp + 1).val = sp.val + 1 := by
  have := sp.isLt
  simp only [Config.stackDepth] at *
  omega

/-- SP after a pop, above the empty stack. -/
theorem sp_sub_one (sp : Fin Config.stackDepth) (h : sp.val ≠ 0) : (sp - 1).val = sp.val - 1 := by
  have := sp.isLt
  simp only [Config.stackDepth] at *
  omega

/-! ### Operand forms -/

@[simp] theorem toNat_zextAddr (nnn : Addr12) : (zextAddr nnn).toNat = nnn.toNat := by
  have := nnn.isLt
  simp only [zextAddr, BitVec.toNat_setWidth]
  omega

theorem toNat_offsetTarget (nnn : Addr12) (b : Byte) : (offsetTarget nnn b).toNat = nnn.toNat + b.toNat := by
  have := nnn.isLt
  have := b.isLt
  simp only [offsetTarget, BitVec.toNat_add, toNat_zextAddr, BitVec.toNat_setWidth]
  omega

theorem toNat_indexSum (i : Word) (a : Byte) : (indexSum i a).toNat = (i.toNat + a.toNat) % 65536 := by
  simp [indexSum]

theorem toNat_glyphAddr (a : Byte) : (glyphAddr a).toNat = 0x50 + 5 * a.toNat := by
  have := a.isLt
  simp only [glyphAddr, Config.fontBase, Config.fontGlyphBytes, BitVec.toNat_ofNat]
  omega

@[simp] theorem length_decimalDigits (v : Byte) : (decimalDigits v).length = 3 := rfl

@[simp] theorem State.length_regBlock (s : State) (x : Reg) : (s.regBlock x).length = x.val + 1 := by
  have := x.isLt
  simp only [State.regBlock, List.length_take, Vector.length_toList]
  omega

/-- The k-th byte of a block store is Vk. -/
theorem State.getD_regBlock (s : State) (x k : Reg) (d : Byte) (h : k.val ≤ x.val) :
    (s.regBlock x).getD k.val d = s.getV k := by
  have hk : k.val < (s.regBlock x).length := by simp; omega
  rw [List.getD_eq_getElem _ _ hk]
  simp [State.regBlock, State.getV]

/-- The lowest key: a pressed key with none pressed below it, or no key pressed at all. -/
theorem lowestKey_spec (keys : Word) :
    (lowestKey keys = none ∧ keys = 0) ∨
      ∃ k, k < 16 ∧ lowestKey keys = some k ∧ keys.getLsbD k = true ∧ ∀ j < k, keys.getLsbD j = false := by
  cases h : lowestKey keys with
  | none =>
    refine .inl ⟨rfl, ?_⟩
    have := List.find?_eq_none.mp h
    apply BitVec.eq_of_getLsbD_eq
    intro i hi
    simpa using this i (List.mem_range.mpr hi)
  | some k =>
    obtain ⟨hk, hlo⟩ := List.find?_range_eq_some.mp h
    exact .inr ⟨k, List.mem_range.mp hlo.1, rfl, hk, fun j hj => by simpa using hlo.2 j hj⟩

/-! ### Results and flags -/

theorem toNat_flagByte (f : Bool) : (flagByte f).toNat = if f then 1 else 0 := by cases f <;> rfl

theorem toNat_add8 (a b : Byte) : (add8 a b).toNat = (a.toNat + b.toNat) % 256 := by simp [add8]

theorem toNat_sub8 (a b : Byte) : (sub8 a b).toNat = (a.toNat + 256 - b.toNat) % 256 := by simp [sub8]

theorem toNat_shr8 (a : Byte) : (shr8 a).toNat = a.toNat / 2 := by
  simp [shr8, Nat.shiftRight_eq_div_pow]

theorem toNat_shl8 (a : Byte) : (shl8 a).toNat = a.toNat * 2 % 256 := by
  simp [shl8, Nat.shiftLeft_eq]

theorem lsbFlag_eq (a : Byte) : lsbFlag a = decide (a.toNat % 2 = 1) := by
  simp [lsbFlag, BitVec.getLsbD, Nat.testBit_zero]

theorem msbFlag_eq (a : Byte) : msbFlag a = decide (128 ≤ a.toNat) := by
  have h := a.isLt
  simp only [msbFlag, BitVec.getLsbD, Nat.testBit_eq_decide_div_mod_eq]
  congr 1
  simp only [eq_iff_iff]
  omega

theorem toNat_countDown (b : Byte) : (countDown b).toNat = b.toNat - 1 := by
  unfold countDown
  split
  · rename_i h; subst h; rfl
  · rename_i h
    have : b.toNat ≠ 0 := fun hb => h (BitVec.eq_of_toNat_eq hb)
    have := b.isLt
    have h1 : (1 : Byte).toNat = 1 := rfl
    rw [BitVec.toNat_sub, h1]
    omega

end Sys2Proof.Machine
end

