-- ==== Sys2Proof/Laws/PerInstr.lean ====
section
/-! SUPPORT. Statements made per instruction: the encoded word carries the fixed bits of the instruction's row in
spec/opcode_table.json (its mask and match). -/

namespace Sys2Proof.Laws.RowBits

/-- The fixed bits of an instruction's row as (header, secondary code's modulus, secondary code): the header is
w[15:12], the secondary code the value of w modulo 1 (none), 16 (n) or 256 (nn). -/
def row : Instr → Nat × Nat × Nat
  | .cls => (0x0, 256, 0xE0)
  | .ret => (0x0, 256, 0xEE)
  | .jp _ => (0x1, 1, 0)
  | .call _ => (0x2, 1, 0)
  | .seImm _ _ => (0x3, 1, 0)
  | .sneImm _ _ => (0x4, 1, 0)
  | .seReg _ _ => (0x5, 1, 0)
  | .ldImm _ _ => (0x6, 1, 0)
  | .addImm _ _ => (0x7, 1, 0)
  | .ldReg _ _ => (0x8, 16, 0x0)
  | .or _ _ => (0x8, 16, 0x1)
  | .and _ _ => (0x8, 16, 0x2)
  | .xor _ _ => (0x8, 16, 0x3)
  | .addReg _ _ => (0x8, 16, 0x4)
  | .sub _ _ => (0x8, 16, 0x5)
  | .shr _ => (0x8, 16, 0x6)
  | .subn _ _ => (0x8, 16, 0x7)
  | .shl _ => (0x8, 16, 0xE)
  | .sneReg _ _ => (0x9, 1, 0)
  | .ldI _ => (0xA, 1, 0)
  | .jpV0 _ => (0xB, 1, 0)
  | .rnd _ _ => (0xC, 1, 0)
  | .drw _ _ _ => (0xD, 1, 0)
  | .skp _ => (0xE, 256, 0x9E)
  | .sknp _ => (0xE, 256, 0xA1)
  | .ldVxDt _ => (0xF, 256, 0x07)
  | .ldVxK _ => (0xF, 256, 0x0A)
  | .ldDtVx _ => (0xF, 256, 0x15)
  | .ldStVx _ => (0xF, 256, 0x18)
  | .addI _ => (0xF, 256, 0x1E)
  | .ldF _ => (0xF, 256, 0x29)
  | .ldB _ => (0xF, 256, 0x33)
  | .storeRegs _ => (0xF, 256, 0x55)
  | .loadRegs _ => (0xF, 256, 0x65)
  | .nop0 nn => (0x0, 256, nn.toNat)
  | .nop8 n => (0x8, 16, n.toNat)
  | .nopE nn => (0xE, 256, nn.toNat)
  | .nopF nn => (0xF, 256, nn.toNat)

/-- The word of `i` has the header and the secondary code of i's row. -/
def Statement (i : Instr) : Prop :=
  (encode i).toNat / 4096 = (row i).1 ∧ (encode i).toNat % (row i).2.1 = (row i).2.2

theorem ofNNN (h : BitVec 4) (nnn : Addr12) : (packNNN h nnn).toNat / 4096 = h.toNat ∧ (packNNN h nnn).toNat % 1 = 0 := by
  rw [toNat_packNNN]; omega

theorem ofXNN (h : BitVec 4) (x : Reg) (nn : Byte) :
    (packXNN h x nn).toNat / 4096 = h.toNat ∧ (packXNN h x nn).toNat % 256 = nn.toNat := by
  rw [toNat_packXNN]; omega

theorem ofXNN_noCode (h : BitVec 4) (x : Reg) (nn : Byte) :
    (packXNN h x nn).toNat / 4096 = h.toNat ∧ (packXNN h x nn).toNat % 1 = 0 :=
  ⟨(ofXNN h x nn).1, Nat.mod_one _⟩

theorem ofXYN (h : BitVec 4) (x y : Reg) (n : Nibble) :
    (packXYN h x y n).toNat / 4096 = h.toNat ∧ (packXYN h x y n).toNat % 16 = n.toNat := by
  rw [toNat_packXYN]; omega

theorem ofXYN_noCode (h : BitVec 4) (x y : Reg) (n : Nibble) :
    (packXYN h x y n).toNat / 4096 = h.toNat ∧ (packXYN h x y n).toNat % 1 = 0 :=
  ⟨(ofXYN h x y n).1, Nat.mod_one _⟩

theorem cls : Statement .cls := ofXNN 0x0 0 0xE0
theorem ret : Statement .ret := ofXNN 0x0 0 0xEE
theorem jp (nnn : Addr12) : Statement (.jp nnn) := ofNNN 0x1 nnn
theorem call (nnn : Addr12) : Statement (.call nnn) := ofNNN 0x2 nnn
theorem seImm (x : Reg) (nn : Byte) : Statement (.seImm x nn) := ofXNN_noCode 0x3 x nn
theorem sneImm (x : Reg) (nn : Byte) : Statement (.sneImm x nn) := ofXNN_noCode 0x4 x nn
theorem seReg (x y : Reg) : Statement (.seReg x y) := ofXYN_noCode 0x5 x y 0x0
theorem ldImm (x : Reg) (nn : Byte) : Statement (.ldImm x nn) := ofXNN_noCode 0x6 x nn
theorem addImm (x : Reg) (nn : Byte) : Statement (.addImm x nn) := ofXNN_noCode 0x7 x nn
theorem ldReg (x y : Reg) : Statement (.ldReg x y) := ofXYN 0x8 x y 0x0
theorem or (x y : Reg) : Statement (.or x y) := ofXYN 0x8 x y 0x1
theorem and (x y : Reg) : Statement (.and x y) := ofXYN 0x8 x y 0x2
theorem xor (x y : Reg) : Statement (.xor x y) := ofXYN 0x8 x y 0x3
theorem addReg (x y : Reg) : Statement (.addReg x y) := ofXYN 0x8 x y 0x4
theorem sub (x y : Reg) : Statement (.sub x y) := ofXYN 0x8 x y 0x5
theorem shr (x : Reg) : Statement (.shr x) := ofXYN 0x8 x 0 0x6
theorem subn (x y : Reg) : Statement (.subn x y) := ofXYN 0x8 x y 0x7
theorem shl (x : Reg) : Statement (.shl x) := ofXYN 0x8 x 0 0xE
theorem sneReg (x y : Reg) : Statement (.sneReg x y) := ofXYN_noCode 0x9 x y 0x0
theorem ldI (nnn : Addr12) : Statement (.ldI nnn) := ofNNN 0xA nnn
theorem jpV0 (nnn : Addr12) : Statement (.jpV0 nnn) := ofNNN 0xB nnn
theorem rnd (x : Reg) (nn : Byte) : Statement (.rnd x nn) := ofXNN_noCode 0xC x nn
theorem drw (x y : Reg) (n : Nibble) : Statement (.drw x y n) := ofXYN_noCode 0xD x y n
theorem skp (x : Reg) : Statement (.skp x) := ofXNN 0xE x 0x9E
theorem sknp (x : Reg) : Statement (.sknp x) := ofXNN 0xE x 0xA1
theorem ldVxDt (x : Reg) : Statement (.ldVxDt x) := ofXNN 0xF x 0x07
theorem ldVxK (x : Reg) : Statement (.ldVxK x) := ofXNN 0xF x 0x0A
theorem ldDtVx (x : Reg) : Statement (.ldDtVx x) := ofXNN 0xF x 0x15
theorem ldStVx (x : Reg) : Statement (.ldStVx x) := ofXNN 0xF x 0x18
theorem addI (x : Reg) : Statement (.addI x) := ofXNN 0xF x 0x1E
theorem ldF (x : Reg) : Statement (.ldF x) := ofXNN 0xF x 0x29
theorem ldB (x : Reg) : Statement (.ldB x) := ofXNN 0xF x 0x33
theorem storeRegs (x : Reg) : Statement (.storeRegs x) := ofXNN 0xF x 0x55
theorem loadRegs (x : Reg) : Statement (.loadRegs x) := ofXNN 0xF x 0x65
theorem nop0 (nn : Byte) : Statement (.nop0 nn) := ofXNN 0x0 0 nn
theorem nop8 (n : Nibble) : Statement (.nop8 n) := ofXYN 0x8 0 0 n
theorem nopE (nn : Byte) : Statement (.nopE nn) := ofXNN 0xE 0 nn
theorem nopF (nn : Byte) : Statement (.nopF nn) := ofXNN 0xF 0 nn

end Sys2Proof.Laws.RowBits
end

