-- ==== Sys2Proof/Laws/Sprite.lean ====
section
/-! SUPPORT. What the sprite loops do, pixel by pixel (spec/43_sprite.md R91-R93, R95). -/

namespace Sys2Proof.Machine

theorem Framebuffer.get_set (fb : Framebuffer) (px qx : Fin Config.fbW) (py qy : Fin Config.fbH) (b : Bool) :
    Framebuffer.get (Framebuffer.set fb px py b) qx qy = if px = qx ∧ py = qy then b else Framebuffer.get fb qx qy := by
  simp only [Framebuffer.get, Framebuffer.set, Vector.getElem_set, Fin.ext_iff]
  by_cases hx : px.val = qx.val
  · have hx' : px = qx := Fin.ext hx
    subst hx'
    simp only [if_true, true_and, Vector.getElem_set]
  · simp [hx]

@[simp] theorem Framebuffer.get_clear (px : Fin Config.fbW) (py : Fin Config.fbH) :
    Framebuffer.get Framebuffer.clear px py = false := by
  simp [Framebuffer.get, Framebuffer.clear]

/-- Framebuffers that look alike are equal. -/
theorem Framebuffer.ext {f g : Framebuffer} (h : ∀ px py, Framebuffer.get f px py = Framebuffer.get g px py) : f = g :=
  Vector.ext fun x hx => Vector.ext fun y hy => h ⟨x, hx⟩ ⟨y, hy⟩

/-- `e` is `d` with exactly the pixels of `S` inverted, and with a collision noted for each of them that was 1. -/
structure Toggles (S : Fin Config.fbW → Fin Config.fbH → Prop) (d e : Framebuffer × Bool) : Prop where
  inside : ∀ px py, S px py → Framebuffer.get e.1 px py = !Framebuffer.get d.1 px py
  outside : ∀ px py, ¬ S px py → Framebuffer.get e.1 px py = Framebuffer.get d.1 px py
  collision : e.2 = true ↔ d.2 = true ∨ ∃ px py, S px py ∧ Framebuffer.get d.1 px py = true

theorem Toggles.refl (d : Framebuffer × Bool) : Toggles (fun _ _ => False) d d :=
  ⟨fun _ _ h => h.elim, fun _ _ _ => rfl, by simp⟩

theorem Toggles.congr {S T : Fin Config.fbW → Fin Config.fbH → Prop} {d e : Framebuffer × Bool} (h : Toggles S d e)
    (hST : ∀ px py, S px py ↔ T px py) : Toggles T d e := by
  have : S = T := funext fun px => funext fun py => propext (hST px py)
  exact this ▸ h

theorem Toggles.trans {S T : Fin Config.fbW → Fin Config.fbH → Prop} {d e f : Framebuffer × Bool} (h₁ : Toggles S d e)
    (h₂ : Toggles T e f) (hdisj : ∀ px py, S px py → ¬ T px py) : Toggles (fun px py => S px py ∨ T px py) d f := by
  refine ⟨fun px py h => ?_, fun px py h => ?_, ?_⟩
  · rcases h with h | h
    · rw [h₂.outside px py (hdisj px py h), h₁.inside px py h]
    · rw [h₂.inside px py h, h₁.outside px py fun hs => hdisj px py hs h]
  · rw [h₂.outside px py fun ht => h (.inr ht), h₁.outside px py fun hs => h (.inl hs)]
  · rw [h₂.collision, h₁.collision]
    constructor
    · rintro ((h | ⟨px, py, hs, hd⟩) | ⟨px, py, ht, he⟩)
      · exact .inl h
      · exact .inr ⟨px, py, .inl hs, hd⟩
      · exact .inr ⟨px, py, .inr ht, h₁.outside px py (fun hs => hdisj px py hs ht) ▸ he⟩
    · rintro (h | ⟨px, py, hs | ht, hd⟩)
      · exact .inl (.inl h)
      · exact .inl (.inr ⟨px, py, hs, hd⟩)
      · exact .inr ⟨px, py, ht, (h₁.outside px py fun hs => hdisj px py hs ht).trans hd⟩

theorem toggles_blitPixel (px : Fin Config.fbW) (py : Fin Config.fbH) (d : Framebuffer × Bool) :
    Toggles (fun qx qy => px = qx ∧ py = qy) d (blitPixel px py d) := by
  refine ⟨fun qx qy h => ?_, fun qx qy h => ?_, ?_⟩
  · obtain ⟨rfl, rfl⟩ := h
    simp [blitPixel, Framebuffer.get_set]
  · simp only [blitPixel, Framebuffer.get_set, if_neg h]
  · simp only [blitPixel, Bool.or_eq_true]
    constructor
    · exact Or.imp id fun h => ⟨px, py, ⟨rfl, rfl⟩, h⟩
    · rintro (h | ⟨_, _, ⟨rfl, rfl⟩, h⟩)
      · exact .inl h
      · exact .inr h

/-- One sprite row: the set bits at offsets k to k + left - 1. -/
theorem toggles_blitRowFrom (ox : Nat) (py : Fin Config.fbH) (row : Byte) (left : Nat) :
    ∀ (k : Nat) (d : Framebuffer × Bool), left ≤ Config.fbW →
      Toggles (fun qx qy => py = qy ∧ ∃ j, k ≤ j ∧ j < k + left ∧ wrapColumn (ox + j) = qx ∧ row.getLsbD (7 - j) = true)
        d (blitRowFrom ox py row k left d) := by
  induction left with
  | zero => exact fun k d _ => (Toggles.refl d).congr fun px py => ⟨False.elim, fun ⟨_, j, _, _, _⟩ => by omega⟩
  | succ left ih =>
    intro k d hleft
    have hrest := fun d' => ih (k + 1) d' (by omega)
    simp only [blitRowFrom]
    split
    · rename_i hbit
      refine ((toggles_blitPixel (wrapColumn (ox + k)) py d).trans (hrest _) ?_).congr ?_
      · rintro qx qy ⟨rfl, rfl⟩ ⟨_, j, h1, h2, h3, _⟩
        have h3 := congrArg Fin.val h3
        simp only [wrapColumn, Fin.val_ofNat, Config.fbW] at h3 hleft
        omega
      · intro qx qy
        constructor
        · rintro (⟨rfl, rfl⟩ | ⟨rfl, j, h1, h2, h3⟩)
          · exact ⟨rfl, k, Nat.le_refl k, by omega, rfl, hbit⟩
          · exact ⟨rfl, j, by omega, by omega, h3⟩
        · rintro ⟨rfl, j, h1, h2, h3, h4⟩
          by_cases hj : j = k
          · subst hj; exact .inl ⟨h3, rfl⟩
          · exact .inr ⟨rfl, j, by omega, by omega, h3, h4⟩
    · rename_i hbit
      refine (hrest d).congr fun qx qy => ?_
      constructor
      · rintro ⟨rfl, j, h1, h2, h3⟩
        exact ⟨rfl, j, by omega, by omega, h3⟩
      · rintro ⟨rfl, j, h1, h2, h3, h4⟩
        have hj : j ≠ k := fun h => hbit (h ▸ h4)
        exact ⟨rfl, j, by omega, by omega, h3, h4⟩

/-- All rows of a sprite no taller than the framebuffer. -/
theorem toggles_blitRows (ox : Nat) (rows : List Byte) :
    ∀ (oy : Nat) (d : Framebuffer × Bool), rows.length ≤ Config.fbH →
      Toggles (fun qx qy => ∃ r, ∃ h : r < rows.length, wrapRow (oy + r) = qy ∧
          ∃ k, k < 8 ∧ wrapColumn (ox + k) = qx ∧ (rows[r]).getLsbD (7 - k) = true)
        d (blitRows ox oy rows d) := by
  induction rows with
  | nil => exact fun oy d _ => (Toggles.refl d).congr fun px py => ⟨False.elim, fun ⟨r, h, _⟩ => by simp at h⟩
  | cons row rest ih =>
    intro oy d hlen
    simp only [List.length_cons] at hlen
    simp only [blitRows]
    refine ((toggles_blitRowFrom ox (wrapRow oy) row 8 0 d (by decide)).trans (ih (oy + 1) _ (by omega)) ?_).congr ?_
    · rintro qx qy ⟨rfl, -⟩ ⟨r, hr, h, -⟩
      have h := congrArg Fin.val h
      simp only [wrapRow, Fin.val_ofNat, Config.fbH] at h hlen
      omega
    · intro qx qy
      constructor
      · rintro (⟨rfl, k, -, hk, h⟩ | ⟨r, hr, rfl, h⟩)
        · exact ⟨0, by simp, rfl, k, by omega, h⟩
        · refine ⟨r + 1, by simpa using hr, ?_, by simpa using h⟩
          congr 1; omega
      · rintro ⟨r, hr, rfl, k, hk, h⟩
        cases r with
        | zero => exact .inl ⟨rfl, k, by omega, by omega, h⟩
        | succ r =>
          refine .inr ⟨r, by simpa using hr, ?_, k, hk, by simpa using h⟩
          congr 1; omega

/-- The draw of n rows read from memory inverts exactly the pixels the spec names (R91-R93). -/
theorem toggles_drawSprite (m : Memory) (i ox oy n : Nat) (hn : n ≤ Config.fbH) (d : Framebuffer × Bool) :
    Toggles (spriteSets m i ox oy n) d (blitRows ox oy (m.readBytes i n) d) := by
  refine (toggles_blitRows ox (m.readBytes i n) oy d (by simpa using hn)).congr fun px py => ?_
  constructor
  · rintro ⟨r, hr, h1, k, hk, h2, h3⟩
    rw [Memory.getElem_readBytes] at h3
    exact ⟨k, r, hk, by simpa using hr, (congrArg Fin.val h2).symm, (congrArg Fin.val h1).symm, h3⟩
  · rintro ⟨k, r, hk, hr, h1, h2, h3⟩
    refine ⟨r, by simpa using hr, Fin.ext h2.symm, k, hk, Fin.ext h1.symm, ?_⟩
    rw [Memory.getElem_readBytes]
    exact h3

end Sys2Proof.Machine
end

