-- ==== Sys2Proof/Laws/Step.lean ====
section
/-! SUPPORT. What a step can do, said once, and the induction that carries a property kept by instruction steps to every
move of the host. -/

namespace Sys2Proof.Machine

/-- An instruction step that answers a next state: a fetch fault was latched, or the decoded instruction ran. -/
theorem instrStep_cases {s t : State} (h : instrStep s = .next t) :
    s.fault = none ∧
      ((∃ c, s.fetchFault = some c ∧ t = s.raise c) ∨ (s.fetchFault = none ∧ exec (decode s.fetchWord) s = .next t)) := by
  unfold instrStep at h
  split at h
  · cases h
  · rename_i hf
    refine ⟨hf, ?_⟩
    split at h
    · rename_i c hc
      cases h
      exact .inl ⟨c, hc, rfl⟩
    · rename_i hc
      exact .inr ⟨hc, h⟩

/-- A step that answers a next state: an instruction step with no host move pending, or the host's next move. -/
theorem step_cases {s t : State} (h : step s = .next t) :
    (s.hostMoves = [] ∧ instrStep s = .next t) ∨
      ∃ m rest, s.hostMoves = m :: rest ∧ hostMove m { s with hostMoves := rest } = .next t := by
  unfold step at h
  split at h
  · rename_i hm; exact .inl ⟨hm, h⟩
  · rename_i m rest hm; exact .inr ⟨m, rest, hm, h⟩

/-- A property that ticks, resets and key updates keep is kept by any events of the host. -/
theorem hostEvents_keeps {P : State → Prop} (htick : ∀ s, P s → P s.tick) (hreset : ∀ s, P s → P s.hostReset)
    (hkeys : ∀ (s : State) (k : Word), P s → P { s with keys := k }) (es : List HostEvent) :
    ∀ s, P s → P (s.hostEvents es) := by
  induction es with
  | nil => exact fun _ h => h
  | cons e es ih =>
    intro s h
    refine ih _ ?_
    cases e with
    | tick => exact htick s h
    | setKeys k => exact hkeys s k h
    | present => exact h
    | reset => exact hreset s h

/-- A property that instruction steps and the host's events keep is kept by a batch. -/
theorem batchFrom_keeps {P : State → Prop} (hP : ∀ s t, P s → instrStep s = .next t → P t)
    (hE : ∀ es s, P s → P (s.hostEvents es)) (left : Nat) :
    ∀ (before : List (List HostEvent)) (done : Nat) (s : State), P s → P (batchFrom left before done s).1 := by
  induction left with
  | zero => exact fun _ _ _ h => h
  | succ left ih =>
    intro before done s h
    have hu := hE (before.headD []) s h
    simp only [batchFrom]
    split
    · exact hu
    · split
      · rename_i t ht
        split
        · exact hP _ t hu ht
        · exact ih _ (done + 1) t (hP _ t hu ht)
      · exact hu
      · exact hu

/-- THE INDUCTION OVER MOVES: a property that instruction steps, ticks, resets, key updates, the batch ports and the list
of coming moves do not break is kept by every step. -/
theorem step_keeps {P : State → Prop}
    (hinstr : ∀ s t, P s → instrStep s = .next t → P t)
    (htick : ∀ s, P s → P s.tick)
    (hreset : ∀ s, P s → P s.hostReset)
    (hkeys : ∀ (s : State) (k : Word), P s → P { s with keys := k })
    (hports : ∀ (s : State) (b : BatchPorts), P s → P { s with batch := b })
    (hmoves : ∀ (s : State) (ms : List HostMove), P s → P { s with hostMoves := ms })
    {s t : State} (hs : P s) (h : step s = .next t) : P t := by
  have hE := hostEvents_keeps htick hreset hkeys
  rcases step_cases h with ⟨-, h⟩ | ⟨m, rest, -, h⟩
  · exact hinstr s t hs h
  · have hs' := hmoves s rest hs
    cases m with
    | run =>
      simp only [hostMove, letRun] at h
      split at h
      · cases h; exact hs'
      · exact hinstr _ t hs' h
    | event e => cases h; exact hE [e] _ hs'
    | runBatch between =>
      cases h
      exact hports _ _ (batchFrom_keeps hinstr hE _ _ 0 _ hs')

/-- The fetch check passes exactly when both bytes are below MEM_SIZE (spec/30_encoding.md R52). -/
theorem State.fetchFault_eq_none (s : State) : s.fetchFault = none ↔ s.pc.toNat + 2 ≤ Config.memSize := by
  simp [State.fetchFault, rangeFault_eq_none]

/-- A state waits exactly when it is not faulted and the word at PC is a fetchable `Fx0A` with no key pressed. -/
theorem State.waits_iff (s : State) :
    s.waits = true ↔ s.fault = none ∧ s.fetchFault = none ∧ (∃ x, decode s.fetchWord = .ldVxK x) ∧ s.keys = 0 := by
  unfold State.waits
  split
  · rename_i x hf hc hd
    simp [hf, hc, hd]
  · rename_i hno
    constructor
    · intro h; cases h
    · rintro ⟨hf, hc, ⟨x, hx⟩, -⟩
      exact absurd hx (hno x hf hc)

/-- The placed word is the one the next step fetches, where both bytes of it exist. -/
theorem State.fetchWord_withFetchWord (s : State) (hm : s.mem.wf) (hpc : s.pc.toNat + 1 < Config.memSize) (w : Word) :
    (s.withFetchWord 16 w.toNat).fetchWord = w := by
  have hw : tableWord 16 w.toNat = w := by
    rw [tableWord, Nat.mod_eq_of_lt w.isLt, BitVec.ofNat_toNat, BitVec.setWidth_eq]
  have hs1 := Memory.sorted_write hm.1 s.pc.toNat (bytesOfWord w).1
  simp only [State.fetchWord, State.withFetchWord, hw, Memory.placeWord, if_pos hpc, Memory.read_write hs1,
    Memory.read_write hm.1, if_true, show ¬ s.pc.toNat + 1 = s.pc.toNat by omega, if_false]
  apply BitVec.eq_of_toNat_eq
  have h1 : (bytesOfWord w).1.toNat = w.toNat / 256 := by
    have := w.isLt
    simp only [bytesOfWord, BitVec.extractLsb'_toNat, Nat.shiftRight_eq_div_pow]
    omega
  have h2 : (bytesOfWord w).2.toNat = w.toNat % 256 := by
    simp [bytesOfWord, BitVec.extractLsb'_toNat]
  rw [wordOfBytes, BitVec.toNat_append, Nat.shiftLeft_eq, Nat.mul_comm,
    ← Nat.two_pow_add_eq_or_of_lt (i := 8) (by omega), h1, h2]
  omega

end Sys2Proof.Machine
end

