-- ==== Sys2Proof/Machine/Transactions.lean ====
section
/-! DEFINITION. The transactions an instruction step makes at the memory and display ports (spec/60_exceptions.md
R115-R118), in the order of the rules' pseudocode (log 16). They add nothing to what the step does: replaying them gives
the M, FB and present requests of the next state (Laws/Transactions). -/

namespace Sys2Proof.Machine

/-- One transaction. An address is below MEM_SIZE (R116) and fits the 16 bits of `mem_addr`. -/
inductive Transaction where
  /-- `mem_rd` at `mem_addr`; `mem_rdata` brings back the byte -/
  | memRead (addr : Nat) (data : Byte)
  /-- `mem_wr` of `mem_wdata` at `mem_addr` -/
  | memWrite (addr : Nat) (data : Byte)
  /-- `fb_get` at (`fb_x`, `fb_y`); `fb_rpix` brings back the pixel -/
  | fbGet (px : Fin Config.fbW) (py : Fin Config.fbH) (bit : Bool)
  /-- `fb_set` of `fb_wpix` at (`fb_x`, `fb_y`) -/
  | fbSet (px : Fin Config.fbW) (py : Fin Config.fbH) (bit : Bool)
  /-- `fb_clear` -/
  | fbClear
  /-- `present_req` -/
  | present
deriving DecidableEq, Repr

/-- What the collaborators hold after a transaction: a read and a `getPixel` change nothing (R116, R117). -/
def Transaction.replay (s : State) : Transaction → State
  | .memRead _ _ | .fbGet _ _ _ => s
  | .memWrite a b => s.storeBytes a [b]
  | .fbSet px py bit => s.setFB (Framebuffer.set s.fb px py bit)
  | .fbClear => s.setFB Framebuffer.clear
  | .present => s.requestPresent

/-- What the collaborators hold after several. -/
def State.replay (s : State) (ts : List Transaction) : State := ts.foldl Transaction.replay s

/-- `s` with what the collaborators hold, and the count of present requests, taken from `t`. -/
def State.withOutside (s t : State) : State := { s with mem := t.mem, fb := t.fb, presentRequests := t.presentRequests }

/-- Whether a transaction names a byte the memory collaborator holds, if it names one (R116). -/
def Transaction.inMemory : Transaction → Bool
  | .memRead a _ | .memWrite a _ => decide (a < Config.memSize)
  | .fbGet _ _ _ | .fbSet _ _ _ | .fbClear | .present => true

/-- The byte reads at `a`, ..., `a + n - 1`. -/
def readTransactions (m : Memory) (a : Nat) : Nat → List Transaction
  | 0 => []
  | n + 1 => .memRead a (m.read a) :: readTransactions m (a + 1) n

/-- The byte writes of a list of bytes from `a` on. -/
def writeTransactions : Nat → List Byte → List Transaction
  | _, [] => []
  | a, b :: rest => .memWrite a b :: writeTransactions (a + 1) rest

/-- One set sprite bit: `getPixel`, then `setPixel` of the inverse (R117, spec/43_sprite.md R95). -/
def pixelTransactions (px : Fin Config.fbW) (py : Fin Config.fbH) (fb : Framebuffer) : List Transaction :=
  [.fbGet px py (Framebuffer.get fb px py), .fbSet px py (!Framebuffer.get fb px py)]

/-- The pixel transactions of one sprite row, as `blitRowFrom` goes through it. -/
def rowTransactions (ox : Nat) (py : Fin Config.fbH) (row : Byte) (k : Nat) :
    Nat → Framebuffer × Bool → List Transaction
  | 0, _ => []
  | left + 1, d =>
    if row.getLsbD (7 - k) then
      pixelTransactions (wrapColumn (ox + k)) py d.1 ++
        rowTransactions ox py row (k + 1) left (blitPixel (wrapColumn (ox + k)) py d)
    else rowTransactions ox py row (k + 1) left d

/-- The pixel transactions of a sprite, as `blitRows` goes through it. -/
def spriteTransactions (ox : Nat) : Nat → List Byte → Framebuffer × Bool → List Transaction
  | _, [], _ => []
  | oy, row :: rest, d =>
    rowTransactions ox (wrapRow oy) row 0 8 d ++
      spriteTransactions ox (oy + 1) rest (blitRowFrom ox (wrapRow oy) row 0 8 d)

/-- Transactions under a check: one that fails makes none (R116, spec/20_memory.md R40). -/
def unlessFault (check : Option FaultCause) (ts : List Transaction) : List Transaction :=
  if check.isSome then [] else ts

/-- The transactions of an instruction after its fetch. -/
def instrTransactions (i : Instr) (s : State) : List Transaction :=
  match i with
  | .cls => [.fbClear]
  | .drw x y n =>
    unlessFault (rangeFault s.i.toNat n.toNat .read)
      (readTransactions s.mem s.i.toNat n.toNat ++
        (spriteTransactions (s.getV x).toNat (s.getV y).toNat (s.mem.readBytes s.i.toNat n.toNat) (s.fb, false) ++
          [.present]))
  | .ldB x => unlessFault (rangeFault s.i.toNat 3 .write) (writeTransactions s.i.toNat (decimalDigits (s.getV x)))
  | .storeRegs x =>
    unlessFault (rangeFault s.i.toNat (x.val + 1) .write) (writeTransactions s.i.toNat (s.regBlock x))
  | .loadRegs x =>
    unlessFault (rangeFault s.i.toNat (x.val + 1) .read) (readTransactions s.mem s.i.toNat (x.val + 1))
  | .ret | .jp _ | .call _ | .seImm _ _ | .sneImm _ _ | .seReg _ _ | .sneReg _ _ | .jpV0 _ => []
  | .ldImm _ _ | .addImm _ _ | .ldReg _ _ | .or _ _ | .and _ _ | .xor _ _ | .addReg _ _ | .sub _ _ => []
  | .shr _ | .subn _ _ | .shl _ | .rnd _ _ | .ldI _ | .addI _ | .ldF _ => []
  | .skp _ | .sknp _ | .ldVxDt _ | .ldVxK _ | .ldDtVx _ | .ldStVx _ => []
  | .nop0 _ | .nop8 _ | .nopE _ | .nopF _ => []

/-- The transactions of the coming instruction step: none from a faulted CORE (R105) or where the fetch faults, else the
two reads of the fetch (spec/20_memory.md R39) and those of the instruction. -/
def State.transactions (s : State) : List Transaction :=
  if s.fault.isSome then []
  else unlessFault s.fetchFault (readTransactions s.mem s.pc.toNat 2 ++ instrTransactions (decode s.fetchWord) s)

end Sys2Proof.Machine
end

