-- ==== Sys2Proof/Laws/Transactions.lean ====
section
/-! SUPPORT. The port transactions of a step are its reads and writes: replaying them gives the next state's M, FB and
present requests, and every address is below MEM_SIZE. -/

namespace Sys2Proof.Machine

@[simp] theorem State.replay_nil (s : State) : s.replay [] = s := rfl

@[simp] theorem State.replay_cons (s : State) (a : Transaction) (ts : List Transaction) :
    s.replay (a :: ts) = (Transaction.replay s a).replay ts := rfl

theorem State.replay_append (s : State) (ts us : List Transaction) : s.replay (ts ++ us) = (s.replay ts).replay us :=
  List.foldl_append

/-- Reads change nothing. -/
@[simp] theorem State.replay_reads (s : State) (m : Memory) (n a : Nat) : s.replay (readTransactions m a n) = s := by
  induction n generalizing a with
  | zero => rfl
  | succ n ih => exact ih (a + 1)

/-- Writes store their bytes. -/
@[simp] theorem State.replay_writes (s : State) (bs : List Byte) (a : Nat) :
    s.replay (writeTransactions a bs) = s.storeBytes a bs := by
  induction bs generalizing a s with
  | nil => rfl
  | cons b bs ih => exact ih (s.storeBytes a [b]) (a + 1)

theorem State.replay_row (ox : Nat) (py : Fin Config.fbH) (row : Byte) (left : Nat) :
    ∀ (k : Nat) (d : Framebuffer × Bool) (s : State), s.fb = d.1 →
      s.replay (rowTransactions ox py row k left d) = s.setFB (blitRowFrom ox py row k left d).1 := by
  induction left with
  | zero => intro k d s h; cases d; cases h; rfl
  | succ left ih =>
    intro k d s h
    simp only [rowTransactions, blitRowFrom]
    split
    · rw [State.replay_append]
      refine (ih (k + 1) _ _ ?_).trans ?_
      · simp [pixelTransactions, Transaction.replay, State.replay, blitPixel, h]
      · rfl
    · exact ih (k + 1) d s h

theorem State.replay_sprite (ox : Nat) (rows : List Byte) :
    ∀ (oy : Nat) (d : Framebuffer × Bool) (s : State), s.fb = d.1 →
      s.replay (spriteTransactions ox oy rows d) = s.setFB (blitRows ox oy rows d).1 := by
  induction rows with
  | nil => intro oy d s h; cases d; cases h; rfl
  | cons row rest ih =>
    intro oy d s h
    simp only [spriteTransactions, blitRows]
    rw [State.replay_append, State.replay_row ox _ row 8 0 d s h]
    exact ih (oy + 1) _ _ rfl

theorem replay_unlessFault {c : Option FaultCause} {s t u : State} {ts : List Transaction}
    (h : Host.Outcome.next (φ := Fault) (ρ := Refusal) (s.orRaise c u) = .next t)
    (hu : s.replay ts = s.withOutside u) : s.replay (unlessFault c ts) = s.withOutside t := by
  cases c <;> cases h
  · exact hu
  · rfl

/-- THE TRANSACTIONS OF AN INSTRUCTION ARE ITS EFFECT ON THE COLLABORATORS. -/
theorem replay_instrTransactions {i : Instr} {s t : State} (h : exec i s = .next t) :
    s.replay (instrTransactions i s) = s.withOutside t := by
  have silent : ∀ {c : Option FaultCause} {u : State}, Host.Outcome.next (φ := Fault) (ρ := Refusal) (s.orRaise c u) =
      .next t → s = s.withOutside u → s = s.withOutside t := by
    intro c u h hu
    cases c <;> cases h
    · exact hu
    · rfl
  cases i
  case drw x y n =>
    refine replay_unlessFault h ?_
    rw [State.replay_append, State.replay_reads, State.replay_append, State.replay_sprite _ _ _ _ _ rfl]
    rfl
  case ldB x => exact replay_unlessFault h (State.replay_writes ..)
  case storeRegs x => exact replay_unlessFault h (State.replay_writes ..)
  case loadRegs x => exact replay_unlessFault h (State.replay_reads ..)
  case ldVxK x =>
    simp only [exec, execLdVxK] at h
    split at h <;> cases h <;> rfl
  case ret => exact silent h rfl
  case call nnn => exact silent h rfl
  case skp x => exact silent h (by simp only [State.skipIf]; split <;> rfl)
  case sknp x => exact silent h (by simp only [State.skipIf]; split <;> rfl)
  case seImm x nn => cases h; simp only [State.skipIf]; split <;> rfl
  case sneImm x nn => cases h; simp only [State.skipIf]; split <;> rfl
  case seReg x y => cases h; simp only [State.skipIf]; split <;> rfl
  case sneReg x y => cases h; simp only [State.skipIf]; split <;> rfl
  all_goals cases h; rfl

/-- The same for a whole instruction step, fetch included. -/
theorem replay_transactions {s t : State} (h : instrStep s = .next t) :
    s.replay s.transactions = s.withOutside t := by
  obtain ⟨hf, ⟨c, hc, rfl⟩ | ⟨hc, h⟩⟩ := instrStep_cases h
  · simp only [State.transactions, hf, hc, unlessFault, Option.isSome_none, Option.isSome_some, Bool.false_eq_true, if_false,
      if_true]
    rfl
  · simp only [State.transactions, hf, hc, unlessFault, Option.isSome_none, Bool.false_eq_true, if_false]
    rw [State.replay_append, State.replay_reads]
    exact replay_instrTransactions h

theorem inMemory_reads (m : Memory) (n a : Nat) (h : n = 0 ∨ a + n ≤ Config.memSize) :
    ∀ x ∈ readTransactions m a n, x.inMemory = true := by
  induction n generalizing a with
  | zero => intro x hx; cases hx
  | succ n ih =>
    intro x hx
    rcases List.mem_cons.mp hx with rfl | hx
    · exact decide_eq_true (by omega)
    · exact ih (a + 1) (by omega) x hx

theorem inMemory_writes (bs : List Byte) (a : Nat) (h : a + bs.length ≤ Config.memSize) :
    ∀ x ∈ writeTransactions a bs, x.inMemory = true := by
  induction bs generalizing a with
  | nil => intro x hx; cases hx
  | cons b bs ih =>
    intro x hx
    simp only [List.length_cons] at h
    rcases List.mem_cons.mp hx with rfl | hx
    · exact decide_eq_true (by omega)
    · exact ih (a + 1) (by omega) x hx

theorem inMemory_row (ox : Nat) (py : Fin Config.fbH) (row : Byte) (left : Nat) :
    ∀ (k : Nat) (d : Framebuffer × Bool), ∀ x ∈ rowTransactions ox py row k left d, x.inMemory = true := by
  induction left with
  | zero => intro k d x hx; cases hx
  | succ left ih =>
    intro k d x hx
    simp only [rowTransactions] at hx
    split at hx
    · rcases List.mem_append.mp hx with hx | hx
      · simp only [pixelTransactions, List.mem_cons, List.not_mem_nil, or_false] at hx
        rcases hx with rfl | rfl <;> rfl
      · exact ih _ _ x hx
    · exact ih _ _ x hx

theorem inMemory_sprite (ox : Nat) (rows : List Byte) :
    ∀ (oy : Nat) (d : Framebuffer × Bool), ∀ x ∈ spriteTransactions ox oy rows d, x.inMemory = true := by
  induction rows with
  | nil => intro oy d x hx; cases hx
  | cons row rest ih =>
    intro oy d x hx
    rcases List.mem_append.mp hx with hx | hx
    · exact inMemory_row _ _ _ _ _ _ x hx
    · exact ih _ _ x hx

theorem inMemory_unlessFault {base n : Nat} {kind : AccessKind} {ts : List Transaction}
    (h : n = 0 ∨ base + n ≤ Config.memSize → ∀ x ∈ ts, x.inMemory = true) :
    ∀ x ∈ unlessFault (rangeFault base n kind) ts, x.inMemory = true := by
  unfold unlessFault
  split
  · intro x hx; cases hx
  · rename_i hc
    exact h ((rangeFault_eq_none base n kind).mp (Option.not_isSome_iff_eq_none.mp hc))

theorem instrTransactions_inMemory (i : Instr) (s : State) : ∀ x ∈ instrTransactions i s, x.inMemory = true := by
  cases i
  case cls => intro x hx; cases List.mem_singleton.mp hx; rfl
  case drw a b n =>
    refine inMemory_unlessFault fun h x hx => ?_
    rcases List.mem_append.mp hx with hx | hx
    · exact inMemory_reads _ _ _ h x hx
    · rcases List.mem_append.mp hx with hx | hx
      · exact inMemory_sprite _ _ _ _ x hx
      · cases List.mem_singleton.mp hx; rfl
  case ldB a =>
    exact inMemory_unlessFault fun h => inMemory_writes _ _ (h.resolve_left (by omega))
  case storeRegs a =>
    exact inMemory_unlessFault fun h =>
      inMemory_writes _ _ (by rw [State.length_regBlock]; exact h.resolve_left (by omega))
  case loadRegs a => exact inMemory_unlessFault fun h => inMemory_reads _ _ _ h
  all_goals intro x hx; cases hx

/-- The memory collaborator only ever sees addresses it holds (spec/60_exceptions.md R116). -/
theorem transactions_inMemory (s : State) : ∀ x ∈ s.transactions, x.inMemory = true := by
  unfold State.transactions
  split
  · intro x hx; cases hx
  · refine inMemory_unlessFault fun hr x hx => ?_
    rcases List.mem_append.mp hx with hx | hx
    · exact inMemory_reads _ _ _ hr x hx
    · exact instrTransactions_inMemory _ _ x hx

end Sys2Proof.Machine
end

