-- ==== Sys2Proof/Machine/Assembly.lean ====
section
/-! DEFINITION. The assembler syntax of spec/30_encoding.md R60: the items of a program, labels among them, the bytes
they assemble to, and an instruction's text. Reading a line's characters is left to the host's tool. -/

namespace Sys2Proof.Machine

/-- The four instructions whose constant is an address and may be a label (R60). -/
inductive AddrOp where
  | jp | call | ldI | jpV0
deriving DecidableEq, Repr

/-- The instruction of an address constant. -/
def AddrOp.instr : AddrOp → Addr12 → Instr
  | .jp, nnn => .jp nnn
  | .call, nnn => .call nnn
  | .ldI, nnn => .ldI nnn
  | .jpV0, nnn => .jpV0 nnn

/-- What one line holds (R60). -/
inductive AsmItem where
  /-- an instruction, with every ignored field 0 -/
  | instr (i : Instr)
  /-- an instruction with a label where `nnn` is expected -/
  | ref (op : AddrOp) (name : String)
  /-- `SHR Vx, Vy`: the given y is assembled, and the CORE ignores it -/
  | shrXY (x y : Reg)
  /-- `SHL Vx, Vy` -/
  | shlXY (x y : Reg)
  /-- `.word` -/
  | word (w : Word)
  /-- `.byte` -/
  | byte (b : Byte)
  /-- `name:`, the address of the next item -/
  | label (name : String)
deriving DecidableEq, Repr

/-- How many bytes an item takes. -/
def AsmItem.size : AsmItem → Nat
  | .instr _ | .ref _ _ | .shrXY _ _ | .shlXY _ _ | .word _ => 2
  | .byte _ => 1
  | .label _ => 0

/-- The address of a label in items that start at `base` (R60). DESIGN CHOICE (log 19), R60 being silent: of a label set
twice the first setting counts, names are compared letter by letter, and a label that is not set, or is set above the
12-bit addresses, has no address. -/
def labelAddr (name : String) : Nat → List AsmItem → Option Addr12
  | _, [] => none
  | base, .label n :: rest =>
    if n = name then (if base < 4096 then some (BitVec.ofNat 12 base) else none) else labelAddr name base rest
  | base, a :: rest => labelAddr name (base + a.size) rest

/-- The two bytes of a word, big-endian. -/
def wordBytes (w : Word) : List Byte := [(bytesOfWord w).1, (bytesOfWord w).2]

/-- The bytes of an item, words big-endian (R60), in a program `all` that starts at `base`. -/
def AsmItem.bytes (base : Nat) (all : List AsmItem) : AsmItem → Option (List Byte)
  | .instr i => some (wordBytes (encode i))
  | .ref op name => (labelAddr name base all).map fun nnn => wordBytes (encode (op.instr nnn))
  | .shrXY x y => some (wordBytes (packXYN 0x8 x y 0x6))
  | .shlXY x y => some (wordBytes (packXYN 0x8 x y 0xE))
  | .word w => some (wordBytes w)
  | .byte b => some [b]
  | .label _ => some []

/-- The bytes of a program that starts at `base`; none where it names a label that has no address (log 19). -/
def assemble (base : Nat) (items : List AsmItem) : Option (List Byte) :=
  (items.mapM (AsmItem.bytes base items)).map List.flatten

/-- The 16 hexadecimal digits. -/
def hexDigit (d : Nat) : String :=
  ["0", "1", "2", "3", "4", "5", "6", "7", "8", "9", "A", "B", "C", "D", "E", "F"].getD (d % 16) "0"

/-- A register's name, `V0` to `VF` (spec/10_state.md R20). -/
def regName (r : Reg) : String := "V" ++ hexDigit r.val

/-- A constant of up to 4, 8, 12 or 16 bits as `0x` and its digits. -/
def hexConst (digits n : Nat) : String :=
  "0x" ++ ((List.range digits).map fun k => hexDigit (n / 16 ^ (digits - 1 - k))).foldl (· ++ ·) ""

/-- The text of an instruction in the syntax of R60, its constants in hexadecimal; a NOP, which has no mnemonic there, is a
`.word` (DESIGN CHOICE, log 19). -/
def asmText (i : Instr) : String :=
  match i with
  | .cls => "CLS"
  | .ret => "RET"
  | .jp nnn => "JP " ++ hexConst 3 nnn.toNat
  | .call nnn => "CALL " ++ hexConst 3 nnn.toNat
  | .seImm x nn => "SE " ++ regName x ++ ", " ++ hexConst 2 nn.toNat
  | .sneImm x nn => "SNE " ++ regName x ++ ", " ++ hexConst 2 nn.toNat
  | .seReg x y => "SE " ++ regName x ++ ", " ++ regName y
  | .ldImm x nn => "LD " ++ regName x ++ ", " ++ hexConst 2 nn.toNat
  | .addImm x nn => "ADD " ++ regName x ++ ", " ++ hexConst 2 nn.toNat
  | .ldReg x y => "LD " ++ regName x ++ ", " ++ regName y
  | .or x y => "OR " ++ regName x ++ ", " ++ regName y
  | .and x y => "AND " ++ regName x ++ ", " ++ regName y
  | .xor x y => "XOR " ++ regName x ++ ", " ++ regName y
  | .addReg x y => "ADD " ++ regName x ++ ", " ++ regName y
  | .sub x y => "SUB " ++ regName x ++ ", " ++ regName y
  | .shr x => "SHR " ++ regName x
  | .subn x y => "SUBN " ++ regName x ++ ", " ++ regName y
  | .shl x => "SHL " ++ regName x
  | .sneReg x y => "SNE " ++ regName x ++ ", " ++ regName y
  | .ldI nnn => "LD I, " ++ hexConst 3 nnn.toNat
  | .jpV0 nnn => "JP V0, " ++ hexConst 3 nnn.toNat
  | .rnd x nn => "RND " ++ regName x ++ ", " ++ hexConst 2 nn.toNat
  | .drw x y n => "DRW " ++ regName x ++ ", " ++ regName y ++ ", " ++ hexConst 1 n.toNat
  | .skp x => "SKP " ++ regName x
  | .sknp x => "SKNP " ++ regName x
  | .ldVxDt x => "LD " ++ regName x ++ ", DT"
  | .ldVxK x => "LD " ++ regName x ++ ", K"
  | .ldDtVx x => "LD DT, " ++ regName x
  | .ldStVx x => "LD ST, " ++ regName x
  | .addI x => "ADD I, " ++ regName x
  | .ldF x => "LD F, " ++ regName x
  | .ldB x => "LD B, " ++ regName x
  | .storeRegs x => "LD [I], " ++ regName x
  | .loadRegs x => "LD " ++ regName x ++ ", [I]"
  | .nop0 _ | .nop8 _ | .nopE _ | .nopF _ => ".word " ++ hexConst 4 (encode i).toNat

end Sys2Proof.Machine
end

