-- ==== Sys2Proof/Tests/Slice0.lean ====
section
/-! SUPPORT. Tests. Expected results are the vectors of spec/95_test_vectors.md (named L1-..., L2-... there) or the rules
named; each runs one step on a small state. `witness_<Obligation>` theorems meet the hypotheses of the statements of
Certificates/Slice0/Obligations.lean, clause by clause at boundary values. -/

namespace Sys2Proof.Tests

open Sys2Proof Sys2Proof.Machine

/-! ### Helpers -/

/-- The next state of an answer, if it is one. -/
def next? : Result → Option State
  | .next t => some t
  | .fault _ | .refused _ => none

/-- One step of the word `w` placed at PC. -/
def after (w : Nat) (s : State) : Option State := next? (step (s.withFetchWord 16 w))

/-- What `f` reads after one step of the word `w`. -/
def obs {α : Type} (w : Nat) (s : State) (f : State → α) : Option α := (after w s).map f

/-- The reset state with some registers set. -/
def regs (l : List (Reg × Byte)) : State := l.foldl (fun s p => s.setV p.1 p.2) State.reset

/-- A state with PC, I or SP set. -/
def atPC (s : State) (a : Word) : State := { s with pc := a }
def atI (s : State) (a : Word) : State := { s with i := a }
def atSP (s : State) (k : Fin Config.stackDepth) : State := { s with sp := k }

/-- A state with a stack entry, keys, timers, pixels, a latch or host moves. -/
def entry (s : State) (k : Fin 16) (a : Word) : State := { s with stack := s.stack.set k.val a }
def keysDown (s : State) (k : Word) : State := { s with keys := k }
def timers (s : State) (d b : Byte) : State := { s with dt := d, st := b }
def lit (s : State) (px : Fin 64) (py : Fin 32) : State := { s with fb := Framebuffer.set s.fb px py true }
def latched (s : State) : State := { s with fault := some ⟨.stackUnderflow, s.pc⟩ }
def moves (s : State) (l : List HostMove) : State := { s with hostMoves := l }

/-- The lit columns of a row. -/
def row (s : State) (py : Fin 32) : List (Fin 64) := (List.finRange 64).filter fun px => Framebuffer.get s.fb px py

/-! ### WellFormed: an ill-formed term for each check -/

theorem test_wellFormed_refuses_nop0 :
    Instr.wellFormed (.nop0 0xE0) = false ∧ Instr.wellFormed (.nop0 0xEE) = false ∧
    Instr.wellFormed (.nop0 0x00) = true := by decide

theorem test_wellFormed_refuses_nop8 :
    Instr.wellFormed (.nop8 0x0) = false ∧ Instr.wellFormed (.nop8 0xE) = false ∧
    Instr.wellFormed (.nop8 0xF) = true := by decide

theorem test_wellFormed_refuses_nopE :
    Instr.wellFormed (.nopE 0x9E) = false ∧ Instr.wellFormed (.nopE 0xA1) = false ∧
    Instr.wellFormed (.nopE 0xFF) = true := by decide

theorem test_wellFormed_refuses_nopF :
    Instr.wellFormed (.nopF 0x65) = false ∧ Instr.wellFormed (.nopF 0x0A) = false ∧
    Instr.wellFormed (.nopF 0x00) = true := by decide

/-! ### Decode and encode: every constructor, its word written out bit by bit from R50, R54, R55 -/

theorem test_decode_flow :
    decode 0b0000000011100000 = .cls ∧ decode 0b0000000011101110 = .ret ∧
    decode 0b0001001000110100 = .jp 0x234 ∧ decode 0b0010001000010000 = .call 0x210 ∧
    decode 0b0011001101000010 = .seImm 3 0x42 ∧ decode 0b0100001101000010 = .sneImm 3 0x42 ∧
    decode 0b0101000100100000 = .seReg 1 2 ∧ decode 0b1001000100100000 = .sneReg 1 2 ∧
    decode 0b1011001100000000 = .jpV0 0x300 := by decide

theorem test_decode_alu :
    decode 0b0110101001111011 = .ldImm 10 0x7B ∧ decode 0b0111000000000101 = .addImm 0 5 ∧
    decode 0b1000000100100000 = .ldReg 1 2 ∧ decode 0b1000000100100001 = .or 1 2 ∧
    decode 0b1000000100100010 = .and 1 2 ∧ decode 0b1000000100100011 = .xor 1 2 ∧
    decode 0b1000000100100100 = .addReg 1 2 ∧ decode 0b1000000100100101 = .sub 1 2 ∧
    decode 0b1000000100000110 = .shr 1 ∧ decode 0b1000000100100111 = .subn 1 2 ∧
    decode 0b1000000100001110 = .shl 1 ∧ decode 0b1100001100001111 = .rnd 3 0x0F := by decide

theorem test_decode_index_sprite :
    decode 0b1010001100000000 = .ldI 0x300 ∧ decode 0b1111001000011110 = .addI 2 ∧
    decode 0b1111010100101001 = .ldF 5 ∧ decode 0b1111101000110011 = .ldB 10 ∧
    decode 0b1111000101010101 = .storeRegs 1 ∧ decode 0b1111001001100101 = .loadRegs 2 ∧
    decode 0b1101000000010001 = .drw 0 1 1 := by decide

theorem test_decode_keys_timers :
    decode 0b1110000110011110 = .skp 1 ∧ decode 0b1110000110100001 = .sknp 1 ∧
    decode 0b1111001100000111 = .ldVxDt 3 ∧ decode 0b1111000100001010 = .ldVxK 1 ∧
    decode 0b1111000000010101 = .ldDtVx 0 ∧ decode 0b1111000000011000 = .ldStVx 0 := by decide

/-- L2-E9 and the example of R55. -/
theorem test_decode_nop :
    decode 0b0000000011100001 = .nop0 0xE1 ∧ decode 0b0000000100100011 = .nop0 0x23 ∧
    decode 0b1000101010111000 = .nop8 8 ∧ decode 0b1000000000001111 = .nop8 15 ∧
    decode 0b1110000011111111 = .nopE 0xFF ∧ decode 0b1111000011111111 = .nopF 0xFF ∧
    decode 0b1111000000000000 = .nopF 0 ∧ decode 0b1000101010111001 = .nop8 9 := by decide

/-- L2-E7, L2-E8, L2-E10, L2-E12, R68: ignored fields. -/
theorem test_decode_ignored_fields :
    decode 0x01E0 = .cls ∧ decode 0x0FEE = .ret ∧ decode 0x5125 = .seReg 1 2 ∧ decode 0x912F = .sneReg 1 2 ∧
    decode 0x8126 = .shr 1 ∧ decode 0x81FE = .shl 1 := by decide

theorem test_encode_canonical :
    encode .cls = 0x00E0 ∧ encode .ret = 0x00EE ∧ encode (.seReg 1 2) = 0x5120 ∧ encode (.shr 1) = 0x8106 ∧
    encode (.shl 1) = 0x810E ∧ encode (.drw 0 1 5) = 0xD015 ∧ encode (.call 0x210) = 0x2210 ∧
    encode (.storeRegs 1) = 0xF155 := by decide

/-- R37: the byte at the lower address is bits 15:8; the rest of the bytes is given back, one byte is no word. -/
theorem test_decodeBytes :
    decodeBytes [0x12, 0x34, 0x56] = .ok (.jp 0x234, [0x56]) ∧ decodeBytes [0x12] = .error .truncated :=
  ⟨rfl, rfl⟩

theorem test_decodeTableWord :
    decodeTableWord 16 0xD015 = some (.drw 0 1 5) ∧ decodeTableWord 16 0x00EE = some .ret := by decide

/-- R60: the SHR form that assembles a y, and data. -/
theorem test_assemble :
    assemble 0x200 [.instr (.call 0x210), .shrXY 1 2, .word 0x1234, .byte 0xFF] =
      some [0x22, 0x10, 0x81, 0x26, 0x12, 0x34, 0xFF] ∧
    asmText (.ldImm 10 0x7B) = "LD VA, 0x7B" := by decide

/-- Program P1 of spec/95_test_vectors.md, its jumps written with labels. -/
theorem test_assemble_labels :
    assemble 0x200 [.instr (.ldImm 0 5), .instr (.ldImm 1 0), .label "loop", .instr (.addImm 1 3),
      .instr (.addImm 0 0xFF), .instr (.seImm 0 0), .ref .jp "loop", .label "end", .ref .jp "end"] =
      some [0x60, 0x05, 0x61, 0x00, 0x71, 0x03, 0x70, 0xFF, 0x30, 0x00, 0x12, 0x04, 0x12, 0x0C] := by decide

/-- Log 19: the first setting of a label counts, and a label that is not set does not assemble. -/
theorem test_assemble_label_choices :
    assemble 0x200 [.label "a", .ref .jp "a", .label "a"] = some [0x12, 0x00] ∧
    assemble 0x200 [.ref .jp "b"] = none := by decide

/-! ### Fetch -/

/-- L2-E1. -/
theorem test_fetch_big_endian : obs 0x1234 State.reset (fun t => t.pc) = some 0x234 := by decide

/-- L2-E2, L2-E3, L2-E4: the last word of memory, and the two fetch faults. -/
theorem test_fetch_edges :
    (atPC State.reset 0xFFE).fetchFault = none ∧
    (next? (step (atPC State.reset 0xFFF))).map (fun t => (t.fault, t.pc)) =
      some (some ⟨.invalidMemoryAccess 0x1000 .fetch, 0xFFF⟩, 0xFFF) ∧
    (next? (step (atPC State.reset 0x10FE))).map (fun t => t.fault) =
      some (some ⟨.invalidMemoryAccess 0x10FE .fetch, 0x10FE⟩) := by decide

/-- L2-E5: an odd PC. -/
theorem test_fetch_odd : obs 0x6007 (atPC State.reset 0x201) (fun t => (t.getV 0, t.pc)) = some (0x07, 0x203) := by
  decide

/-- R52, R43: PC at the top of its range. -/
theorem test_fetch_top :
    (next? (step (atPC State.reset 0xFFFF))).map (fun t => t.fault) =
      some (some ⟨.invalidMemoryAccess 0xFFFF .fetch, 0xFFFF⟩) := by decide

/-! ### Control flow -/

/-- L2-E6, L2-E9. -/
theorem test_nops :
    obs 0x0000 State.reset (fun t => t.pc) = some 0x202 ∧ obs 0x8AB8 State.reset (fun t => t.pc) = some 0x202 ∧
    obs 0xE0FF State.reset (fun t => t.pc) = some 0x202 ∧ obs 0xF0FF State.reset (fun t => t.pc) = some 0x202 := by
  decide

/-- L2-F5. -/
theorem test_ret :
    obs 0x00EE (entry (entry (atSP State.reset 2) 2 0x222) 1 0x206) (fun t => (t.pc, t.sp, t.stack[2])) =
      some (0x222, 1, 0x222) := by decide

/-- L2-F4. -/
theorem test_ret_underflow :
    obs 0x00EE State.reset (fun t => (t.fault, t.pc)) = some (some ⟨.stackUnderflow, 0x200⟩, 0x200) := by decide

/-- L1-S2, L2-F6. -/
theorem test_jp :
    obs 0x1200 State.reset (fun t => t.pc) = some 0x200 ∧ obs 0x1FFF State.reset (fun t => t.pc) = some 0xFFF := by
  decide

/-- L2-F1, L2-F2. -/
theorem test_call :
    obs 0x2300 State.reset (fun t => (t.sp, t.stack[1], t.pc)) = some (1, 0x202, 0x300) ∧
    obs 0x2500 (atPC (atSP State.reset 14) 0x400) (fun t => (t.sp, t.stack[15], t.pc)) = some (15, 0x402, 0x500) := by
  decide

/-- L2-F3. -/
theorem test_call_overflow :
    obs 0x2500 (atSP State.reset 15) (fun t => (t.fault, t.sp, t.pc)) =
      some (some ⟨.stackOverflow 15, 0x200⟩, 15, 0x200) := by decide

/-- L2-F7, L2-F11. -/
theorem test_seImm :
    obs 0x3342 (regs [(3, 0x42)]) (fun t => t.pc) = some 0x204 ∧
    obs 0x3343 (regs [(3, 0x42)]) (fun t => t.pc) = some 0x202 ∧
    obs 0x3F01 (regs [(15, 1)]) (fun t => t.pc) = some 0x204 := by decide

/-- L2-F8. -/
theorem test_sneImm :
    obs 0x4342 (regs [(3, 0x42)]) (fun t => t.pc) = some 0x202 ∧
    obs 0x4300 (regs [(3, 0x42)]) (fun t => t.pc) = some 0x204 := by decide

/-- L2-E10, L2-F9. -/
theorem test_seReg :
    obs 0x5125 (regs [(1, 7), (2, 7)]) (fun t => t.pc) = some 0x204 ∧
    obs 0x5440 (regs [(4, 9)]) (fun t => t.pc) = some 0x204 ∧
    obs 0x5120 (regs [(1, 7), (2, 8)]) (fun t => t.pc) = some 0x202 := by decide

/-- L2-E11, L2-F10. -/
theorem test_sneReg :
    obs 0x912F (regs [(1, 7), (2, 8)]) (fun t => t.pc) = some 0x204 ∧
    obs 0x9440 (regs [(4, 9)]) (fun t => t.pc) = some 0x202 := by decide

/-- L2-F12: the skipped word may lie outside memory. -/
theorem test_skip_over_the_edge : obs 0x3000 (atPC State.reset 0xFFC) (fun t => (t.pc, t.fault)) = some (0x1000, none) := by
  decide

/-- L2-F13, L2-F14, L2-F15. -/
theorem test_jpV0 :
    obs 0xB300 (regs [(0, 0x10)]) (fun t => t.pc) = some 0x310 ∧
    obs 0xBFFF (regs [(0, 0xFF)]) (fun t => t.pc) = some 0x10FE ∧
    obs 0xB210 (regs [(2, 1), (5, 1)]) (fun t => t.pc) = some 0x210 := by decide

/-! ### Register loads, arithmetic and logic -/

/-- L1-P1, L2-A1. -/
theorem test_ldImm :
    obs 0x6A7B State.reset (fun t => t.getV 10) = some 0x7B ∧ obs 0x6FAA State.reset (fun t => t.getV 15) = some 0xAA := by
  decide

/-- L2-A2, L2-A3. -/
theorem test_addImm :
    obs 0x7001 (regs [(0, 0xFF), (15, 0x55)]) (fun t => (t.getV 0, t.getV 15)) = some (0x00, 0x55) ∧
    obs 0x7FFF (regs [(15, 0x01)]) (fun t => t.getV 15) = some 0x00 := by decide

/-- L2-A4. -/
theorem test_ldReg : obs 0x8120 (regs [(2, 0x33)]) (fun t => (t.getV 1, t.getV 2)) = some (0x33, 0x33) := by decide

/-- L2-A5. -/
theorem test_or :
    obs 0x8121 (regs [(1, 0x0F), (2, 0xF0), (15, 0x77)]) (fun t => (t.getV 1, t.getV 15)) = some (0xFF, 0x77) := by
  decide

/-- L2-A6. -/
theorem test_and :
    obs 0x8122 (regs [(1, 0x3C), (2, 0x0F), (15, 0x77)]) (fun t => (t.getV 1, t.getV 15)) = some (0x0C, 0x77) := by
  decide

/-- L2-A7, L2-A8. -/
theorem test_xor :
    obs 0x8123 (regs [(1, 0xFF), (2, 0x0F)]) (fun t => t.getV 1) = some 0xF0 ∧
    obs 0x8113 (regs [(1, 0x5A)]) (fun t => t.getV 1) = some 0x00 := by decide

/-- L2-A10, L2-A9, and L1-P3 for no carry. -/
theorem test_addReg :
    obs 0x8124 (regs [(1, 0xF0), (2, 0x20)]) (fun t => (t.getV 1, t.getV 15)) = some (0x10, 1) ∧
    obs 0x8124 (regs [(1, 0xFF), (2, 0xFF)]) (fun t => (t.getV 1, t.getV 15)) = some (0xFE, 1) ∧
    obs 0x8124 (regs [(1, 0x80), (2, 0x7F), (15, 9)]) (fun t => (t.getV 1, t.getV 15)) = some (0xFF, 0) := by decide

/-- L2-A12, L2-A13: VF as destination and as operand. -/
theorem test_addReg_vF :
    obs 0x8F14 (regs [(15, 0x10), (1, 0xF5)]) (fun t => t.getV 15) = some 1 ∧
    obs 0x81F4 (regs [(1, 0x01), (15, 0xFF)]) (fun t => (t.getV 1, t.getV 15)) = some (0x00, 1) := by decide

/-- L1-P4: equal, less, greater. -/
theorem test_sub :
    obs 0x8125 (regs [(1, 3), (2, 3)]) (fun t => (t.getV 1, t.getV 15)) = some (0x00, 0) ∧
    obs 0x8125 (regs [(1, 1), (2, 2)]) (fun t => (t.getV 1, t.getV 15)) = some (0xFF, 0) ∧
    obs 0x8125 (regs [(1, 5), (2, 3)]) (fun t => (t.getV 1, t.getV 15)) = some (0x02, 1) := by decide

/-- L2-A14, L2-A15. -/
theorem test_sub_vF :
    obs 0x8F15 (regs [(15, 5), (1, 3)]) (fun t => t.getV 15) = some 1 ∧
    obs 0x81F5 (regs [(1, 0x10), (15, 1)]) (fun t => (t.getV 1, t.getV 15)) = some (0x0F, 1) := by decide

/-- L2-A16, L2-A17, L2-E12. -/
theorem test_shr :
    obs 0x8106 (regs [(1, 5)]) (fun t => (t.getV 1, t.getV 15)) = some (2, 1) ∧
    obs 0x8106 (regs [(1, 0x80)]) (fun t => (t.getV 1, t.getV 15)) = some (0x40, 0) ∧
    obs 0x8126 (regs [(1, 4), (2, 0xFF)]) (fun t => (t.getV 1, t.getV 2, t.getV 15)) = some (2, 0xFF, 0) := by decide

/-- L2-A18. -/
theorem test_shr_vF : obs 0x8F06 (regs [(15, 3)]) (fun t => t.getV 15) = some 1 := by decide

/-- L2-A19, L2-A20, L2-A21. -/
theorem test_subn :
    obs 0x8127 (regs [(1, 3), (2, 5)]) (fun t => (t.getV 1, t.getV 15)) = some (2, 1) ∧
    obs 0x8127 (regs [(1, 5), (2, 5)]) (fun t => (t.getV 1, t.getV 15)) = some (0, 0) ∧
    obs 0x8127 (regs [(1, 5), (2, 3)]) (fun t => (t.getV 1, t.getV 15)) = some (0xFE, 0) := by decide

/-- L2-A22, L2-A23, L2-A24. -/
theorem test_shl :
    obs 0x810E (regs [(1, 0x81)]) (fun t => (t.getV 1, t.getV 15)) = some (2, 1) ∧
    obs 0x810E (regs [(1, 0x40)]) (fun t => (t.getV 1, t.getV 15)) = some (0x80, 0) ∧
    obs 0x8F0E (regs [(15, 0x80)]) (fun t => t.getV 15) = some 1 := by decide

/-- L2-A26: a mask of 0. -/
theorem test_rnd_zero_mask : ∃ t, exec (.rnd 3 0) State.reset = .next t ∧ t.getV 3 = 0 ∧ t.randDraws = 1 :=
  ⟨_, rfl, by show Config.randByte 0 &&& 0 = 0; exact BitVec.and_zero, rfl⟩

/-- R84: the drawn byte masked, whatever it is. -/
theorem test_rnd_mask : ∃ t, exec (.rnd 3 0x0F) State.reset = .next t ∧ t.getV 3 = Config.randByte 0 &&& 0x0F ∧ t.pc = 0x202 :=
  ⟨_, rfl, rfl, rfl⟩

/-! ### Index register and memory -/

/-- L2-I1. -/
theorem test_ldI : obs 0xA123 State.reset (fun t => t.i) = some 0x0123 := by decide

/-- L2-I2, L2-I3. -/
theorem test_addI :
    obs 0xF01E (atI (regs [(0, 1), (15, 9)]) 0xFFFF) (fun t => (t.i, t.getV 15)) = some (0x0000, 0x09) ∧
    obs 0xF01E (atI (regs [(0, 1)]) 0x0FFF) (fun t => (t.i, t.fault)) = some (0x1000, none) := by decide

/-- L2-I4. -/
theorem test_ldF :
    obs 0xF029 State.reset (fun t => t.i) = some 0x0050 ∧ obs 0xF029 (regs [(0, 0x0F)]) (fun t => t.i) = some 0x009B ∧
    obs 0xF029 (regs [(0, 0x10)]) (fun t => t.i) = some 0x00A0 ∧
    obs 0xF029 (regs [(0, 0xFF)]) (fun t => t.i) = some 0x054B := by decide

/-- L2-I5, L2-I6. -/
theorem test_ldB :
    obs 0xF033 (atI (regs [(0, 255)]) 0x300) (fun t => (t.mem.readBytes 0x300 3, t.i)) = some ([2, 5, 5], 0x300) ∧
    obs 0xF033 (atI (regs [(0, 0x7B)]) 0xFFD) (fun t => t.mem.readBytes 0xFFD 3) = some [1, 2, 3] ∧
    obs 0xF033 (atI (regs [(0, 100)]) 0x300) (fun t => t.mem.readBytes 0x300 3) = some [1, 0, 0] := by decide

/-- L2-I7, L2-I8. -/
theorem test_ldB_fault :
    obs 0xF033 (atI (regs [(0, 255)]) 0xFFE) (fun t => (t.fault, t.mem.readBytes 0xFFE 2, t.pc)) =
      some (some ⟨.invalidMemoryAccess 0x1000 .write, 0x200⟩, [0, 0], 0x200) ∧
    obs 0xF033 (atI State.reset 0x1005) (fun t => t.fault) =
      some (some ⟨.invalidMemoryAccess 0x1005 .write, 0x200⟩) := by decide

/-- The registers Vk = 0x11 * k of L2-I10. -/
def elevens : State := { State.reset with v := Vector.ofFn fun k : Reg => u8 (0x11 * k.val) }

/-- L2-I10, and the example of R89. -/
theorem test_storeRegs :
    obs 0xFF55 (atI elevens 0xFF0) (fun t => (t.mem.readBytes 0xFF0 16, t.i)) =
      some ([0x00, 0x11, 0x22, 0x33, 0x44, 0x55, 0x66, 0x77, 0x88, 0x99, 0xAA, 0xBB, 0xCC, 0xDD, 0xEE, 0xFF], 0xFF0) ∧
    obs 0xF155 (atI (regs [(0, 0x11), (1, 0x22), (2, 0x33)]) 0x400) (fun t => (t.mem.readBytes 0x400 3, t.i)) =
      some ([0x11, 0x22, 0x00], 0x400) := by decide

/-- L2-I11. -/
theorem test_storeRegs_fault :
    obs 0xFF55 (atI elevens 0xFF1) (fun t => (t.fault, t.mem.readBytes 0xFF1 15)) =
      some (some ⟨.invalidMemoryAccess 0x1000 .write, 0x200⟩, List.replicate 15 0) := by decide

/-- L2-I12. -/
theorem test_loadRegs :
    obs 0xF265 (atI ((regs [(3, 0x99)]).storeBytes 0x300 [1, 2, 3]) 0x300)
      (fun t => (t.getV 0, t.getV 1, t.getV 2, t.getV 3, t.i)) = some (1, 2, 3, 0x99, 0x300) := by decide

/-- L2-I14. -/
theorem test_loadRegs_fault :
    obs 0xF065 (atI State.reset 0x1000) (fun t => t.fault) =
      some (some ⟨.invalidMemoryAccess 0x1000 .read, 0x200⟩) := by decide

/-- L2-I15: self-modifying code. -/
theorem test_stored_word_runs :
    ((obs 0xF155 (atI (regs [(0, 0x12), (1, 0x08)]) 0x202) (fun t => next? (step t))).join).map (fun t => t.pc) =
      some 0x208 := by decide

/-! ### Framebuffer and sprites -/

/-- L2-D1. -/
theorem test_cls :
    obs 0x00E0 (lit (regs [(15, 0x33)]) 5 6) (fun t => (row t 6, t.getV 15, t.presentRequests)) = some ([], 0x33, 0) := by
  decide

/-- L1-P7: wraparound of columns; one present request (R118). -/
theorem test_drw_wraps :
    obs 0xD011 (atI ((regs [(0, 60)]).storeBytes 0x300 [0xFF]) 0x300)
      (fun t => (row t 0, row t 1, t.getV 15, t.presentRequests)) = some ([0, 1, 2, 3, 60, 61, 62, 63], [], 0, 1) := by
  decide

/-- L2-D7, L2-D8, L2-D9: collision. -/
theorem test_drw_collides :
    obs 0xD011 (atI ((lit State.reset 0 0).storeBytes 0x300 [0xC0]) 0x300) (fun t => (row t 0, t.getV 15)) =
      some ([1], 1) ∧
    obs 0xD011 (atI ((lit State.reset 0 0).storeBytes 0x300 [0x40]) 0x300) (fun t => (row t 0, t.getV 15)) =
      some ([0, 1], 0) ∧
    obs 0xD012 (atI ((lit State.reset 0 1).storeBytes 0x300 [0x00, 0x80]) 0x300) (fun t => (row t 1, t.getV 15)) =
      some ([], 1) := by decide

/-- L2-D3, L2-D4, L2-D6: the bit order and the row wrap. -/
theorem test_drw_geometry :
    obs 0xD011 (atI (State.reset.storeBytes 0x300 [0x01]) 0x300) (fun t => row t 0) = some [7] ∧
    obs 0xD012 (atI ((regs [(1, 31)]).storeBytes 0x300 [0x80, 0x80]) 0x300) (fun t => (row t 31, row t 0)) =
      some ([0], [0]) ∧
    obs 0xD011 (atI ((regs [(0, 0xFF), (1, 0xFF)]).storeBytes 0x300 [0xC0]) 0x300) (fun t => row t 31) =
      some [0, 63] := by decide

/-- L2-D10, L2-D11, L2-D12, L2-D13. -/
theorem test_drw_corners :
    obs 0xD010 (atI (lit (regs [(15, 0x44)]) 0 0) 0x1000) (fun t => (row t 0, t.getV 15, t.fault)) =
      some ([0], 0, none) ∧
    obs 0xD012 (atI (regs [(15, 0x44)]) 0xFFF) (fun t => (t.fault, t.getV 15, t.pc)) =
      some (some ⟨.invalidMemoryAccess 0x1000 .read, 0x200⟩, 0x44, 0x200) ∧
    obs 0xD011 (atI (State.reset.storeBytes 0xFFF [0x80]) 0xFFF) (fun t => (row t 0, t.fault)) = some ([0], none) ∧
    obs 0xDF11 (atI ((regs [(15, 0x0A)]).storeBytes 0x300 [0x80]) 0x300) (fun t => (row t 0, t.getV 15)) =
      some ([10], 0) := by decide

/-! ### Keys and timers -/

/-- L2-K1, L2-K2, L2-K5. -/
theorem test_skp :
    obs 0xE19E (keysDown (regs [(1, 5)]) 0x0020) (fun t => t.pc) = some 0x204 ∧
    obs 0xE19E (keysDown (regs [(1, 5)]) 0x0010) (fun t => t.pc) = some 0x202 ∧
    obs 0xE19E (regs [(1, 0x10)]) (fun t => (t.fault, t.pc)) = some (some ⟨.keyIndexOutOfRange 0x10, 0x200⟩, 0x200) := by
  decide

/-- L2-K3, L2-K4, L2-K6. -/
theorem test_sknp :
    obs 0xE1A1 (regs [(1, 5)]) (fun t => t.pc) = some 0x204 ∧
    obs 0xE1A1 (keysDown (regs [(1, 5)]) 0xFFFF) (fun t => t.pc) = some 0x202 ∧
    obs 0xE1A1 (regs [(1, 0xFF)]) (fun t => t.fault) = some (some ⟨.keyIndexOutOfRange 0xFF, 0x200⟩) := by decide

/-- L2-K7. -/
theorem test_ldVxDt : obs 0xF307 (timers State.reset 0x3C 0) (fun t => (t.getV 3, t.dt)) = some (0x3C, 0x3C) := by decide

/-- L2-K8. -/
theorem test_ldDtVx : obs 0xF015 (timers (regs [(0, 3)]) 0 9) (fun t => (t.dt, t.st)) = some (3, 9) := by decide

/-- L2-K9. -/
theorem test_ldStVx : obs 0xF018 (timers (regs [(0, 0x10)]) 2 0) (fun t => (t.dt, t.st)) = some (2, 0x10) := by decide

/-- L2-K10. -/
theorem test_key_wait : obs 0xF10A (atPC State.reset 0x20A) (fun t => (t.pc, t.getV 1, t.waits)) = some (0x20A, 0, true) := by
  decide

/-- L2-K11, L2-K12, L2-K13. -/
theorem test_key_taken :
    obs 0xF20A (keysDown (regs [(2, 7)]) 0x8001) (fun t => (t.getV 2, t.pc)) = some (0x00, 0x202) ∧
    obs 0xF20A (keysDown State.reset 0x8000) (fun t => t.getV 2) = some 0x0F ∧
    obs 0xFF0A (keysDown State.reset 0x0004) (fun t => t.getV 15) = some 0x02 := by decide

/-- L2-K14, L2-K15, L2-X2. -/
theorem test_tick :
    (next? (step (moves (timers State.reset 1 0) [.event .tick]))).map (fun t => (t.dt, t.st)) = some (0, 0) ∧
    (next? (step (moves (timers State.reset 0 5) [.event .tick]))).map (fun t => (t.dt, t.st)) = some (0, 4) ∧
    (next? (step (moves (latched (timers State.reset 4 0)) [.event .tick]))).map (fun t => t.dt) = some 3 := by decide

/-! ### Faults, batch and reset -/

/-- The start of L2-X3: latched, with some registers and a pixel set. -/
def beforeReset : State := moves (latched (atI (atPC (atSP (lit (regs [(3, 4)]) 1 2) 3) 0x404) 7)) [.event .reset]

/-- L2-X3. -/
theorem test_reset :
    (next? (step beforeReset)).map (fun t => (t.getV 3, t.i, t.pc)) = some (0, 0, 0x200) ∧
    (next? (step beforeReset)).map (fun t => (t.sp, t.fault, row t 2)) = some (0, none, [1]) := by decide

/-- The program of L2-X4. -/
def waitProgram : State := State.reset.storeBytes 0x200 [0x60, 0x05, 0x70, 0x05, 0xF0, 0x0A]

/-- L2-X4: two steps, then Wait. -/
theorem test_batch_waits :
    ((waitProgram.runBatch 4 []).batch, (waitProgram.runBatch 4 []).getV 0, (waitProgram.runBatch 4 []).pc) =
      (⟨.waiting, 2, true⟩, 0x0A, 0x204) := by decide

/-- R114: the host presses key 1 between steps 2 and 3 of the batch of L2-X4, and step 3 takes it (L2-X5). -/
theorem test_batch_interleaved :
    ((waitProgram.runBatch 3 [[], [.setKeys 0x0002]]).batch, (waitProgram.runBatch 3 [[], [.setKeys 0x0002]]).getV 0,
      (waitProgram.runBatch 3 [[], [.setKeys 0x0002]]).pc) = (⟨.done, 3, true⟩, 0x01, 0x206) := by decide

/-- L2-X6, L2-X7, L2-X1. -/
theorem test_batch_ends :
    ((State.reset.storeBytes 0x200 [0x00, 0xEE]).runBatch 3 []).batch = ⟨.faulted, 0, true⟩ ∧
    ((State.reset.storeBytes 0x200 [0x00, 0xEE]).runBatch 3 []).fault = some ⟨.stackUnderflow, 0x200⟩ ∧
    ((State.reset.storeBytes 0x200 [0x12, 0x00]).runBatch 3 []).batch = ⟨.done, 3, true⟩ ∧
    ((latched State.reset).runBatch 3 []).batch = ⟨.faulted, 0, true⟩ := by decide

/-- R32: a latched fault with no host move left stands still. -/
theorem test_halted : step (latched State.reset) = .fault (.halted ⟨.stackUnderflow, 0x200⟩) := rfl

/-- R115: the output ports after L2-E3. -/
theorem test_fault_ports :
    (next? (step (atPC State.reset 0xFFF))).map (fun t => (t.faultCode, t.faultInfo, t.faultKind, t.faultPC)) =
      some (1, some 0x1000, some 0, some 0xFFF) := by decide

/-- R115: `batch_done` is 0 before the first batch and 1 after one. -/
theorem test_batch_done :
    State.reset.batchDonePort = false ∧ ((latched State.reset).runBatch 1 []).batchDonePort = true := by decide

/-- R115-R118: the fetch, the sprite row, two pixels, one of them lit, and the request of `D011` (L2-D7). -/
theorem test_transactions_drw :
    ((atI ((lit State.reset 0 0).storeBytes 0x300 [0xC0]) 0x300).withFetchWord 16 0xD011).transactions =
      [.memRead 0x200 0xD0, .memRead 0x201 0x11, .memRead 0x300 0xC0, .fbGet 0 0 true, .fbSet 0 0 false,
        .fbGet 1 0 false, .fbSet 1 0 true, .present] := by decide

/-- R116: the digits of 123 go out at I, I+1, I+2; a store that faults puts nothing on the port but its fetch. -/
theorem test_transactions_write :
    ((atI (regs [(0, 0x7B)]) 0x300).withFetchWord 16 0xF033).transactions =
      [.memRead 0x200 0xF0, .memRead 0x201 0x33, .memWrite 0x300 1, .memWrite 0x301 2, .memWrite 0x302 3] ∧
    ((atI State.reset 0xFFE).withFetchWord 16 0xF033).transactions = [.memRead 0x200 0xF0, .memRead 0x201 0x33] ∧
    (atPC State.reset 0xFFF).transactions = [] := by decide

/-- R133: a jump to itself and a waiting key-wait end a run; zero-filled memory does not. -/
theorem test_atEnd :
    (State.reset.withFetchWord 16 0x1200).atEnd = true ∧ (State.reset.withFetchWord 16 0xF10A).atEnd = true ∧
    State.reset.atEnd = false ∧ (latched State.reset).atEnd = true := by decide

/-- R127: the glyph of digit A, as a host that wants the font loads it, and the program at LOAD_ADDR. -/
theorem test_boot :
    (State.boot [0x12, 0x34]).mem.readBytes 0x82 5 = [0xF0, 0x90, 0xF0, 0x90, 0x90] ∧
    (next? (step (State.boot [0x12, 0x34]))).map (fun t => t.pc) = some 0x234 := by decide

/-! ### Witnesses: the hypotheses of each statement can be met -/

theorem witness_DecodeInvertsEncode :
    Instr.wellFormed (.drw 15 15 15) = true ∧ Instr.wellFormed (.nop0 0xFF) = true ∧
    Instr.wellFormed (.nop8 0x8) = true ∧ Instr.wellFormed (.nopE 0x00) = true ∧
    Instr.wellFormed (.nopF 0x66) = true := by decide

/-- The state of the step witnesses: `JP 0xFFE` in the last word of memory. -/
def lastWord : State := (atPC State.reset 0xFFE).withFetchWord 16 0x1FFE

theorem witness_StepRunsDecodedInstruction :
    lastWord.fault = none ∧ lastWord.pc.toNat + 1 < 4096 ∧ lastWord.mem.read 0xFFE = 0x1F ∧
    lastWord.mem.read 0xFFF = 0xFE ∧ decode (u16 (256 * 0x1F + 0xFE)) = .jp 0xFFE ∧ lastWord.hostMoves = [] ∧
    (moves lastWord [.run]).hostMoves = HostMove.run :: [] := by decide

theorem witness_FetchReadsWordOrFaults :
    (atPC State.reset 0xFFE).fault = none ∧ (atPC State.reset 0xFFE).pc.toNat + 1 < 4096 ∧
    4096 ≤ (atPC State.reset 0xFFF).pc.toNat + 1 ∧ 4096 ≤ (atPC State.reset 0xFFFF).pc.toNat + 1 := by decide

theorem witness_FaultedCoreTakesNoStep :
    (latched State.reset).fault = some ⟨.stackUnderflow, 0x200⟩ ∧ (latched State.reset).hostMoves = [] ∧
    (moves (latched State.reset) [.run]).hostMoves = HostMove.run :: [] ∧
    (moves (latched State.reset) [.runBatch [[.tick]]]).hostMoves = HostMove.runBatch [[.tick]] :: [] ∧
    (moves (latched State.reset) [.event .tick, .run]).hostMoves = HostMove.event .tick :: [HostMove.run] ∧
    (moves (latched State.reset) [.event .reset]).hostMoves = HostMove.event .reset :: [] := by decide

theorem witness_PlacedWordRunsNext :
    lastWord.mem.wf ∧ lastWord.pc.toNat + 1 < 4096 ∧ State.reset.mem.wf := by decide

theorem witness_PcAfterEachInstruction_fault :
    State.reset.fault = none ∧ ∃ t, exec .ret State.reset = .next t ∧ t.fault ≠ none := ⟨rfl, _, rfl, by decide⟩

theorem witness_PcAfterEachInstruction :
    ∀ i ∈ [Instr.jp 0xFFF, .call 0, .jpV0 0xFFF, .seImm 0 0, .sneImm 0 0, .seReg 1 2, .sneReg 1 2, .skp 0, .sknp 0,
      .ldVxK 1, .cls, .ldB 0, .nopF 0],
      (next? (exec i State.reset)).map (fun t => t.fault) = some none := by decide

theorem witness_PcAfterEachInstruction_ret :
    (next? (exec .ret (entry (atSP State.reset 1) 1 0x206))).map (fun t => t.fault) = some none := by decide

theorem witness_host_moves :
    (moves State.reset [.event .reset]).hostMoves = HostMove.event .reset :: [] ∧
    (moves State.reset [.event .tick]).hostMoves = HostMove.event .tick :: [] ∧
    (moves State.reset [.event (.setKeys 0xFFFF), .run]).hostMoves = HostMove.event (.setKeys 0xFFFF) :: [.run] ∧
    (moves State.reset [.event .present]).hostMoves = HostMove.event .present :: [] ∧
    (moves State.reset [.runBatch [[.tick]]]).hostMoves = HostMove.runBatch [[.tick]] :: [] := by decide

/-- Each way a batch ends, with size 1: Done, Waiting, Faulted; and a batch on a faulted CORE. -/
theorem witness_BatchRunsCompletedSteps :
    ((State.reset.withFetchWord 16 0x1200).runBatch 1 []).batch = ⟨.done, 1, true⟩ ∧
    ((State.reset.withFetchWord 16 0xF00A).runBatch 1 []).batch = ⟨.waiting, 0, true⟩ ∧
    ((State.reset.withFetchWord 16 0x00EE).runBatch 1 []).batch = ⟨.faulted, 0, true⟩ ∧
    (latched State.reset).fault ≠ none ∧ State.reset.fault = none := by decide

theorem witness_RetPopsTheReturnAddress :
    (atSP State.reset 1).sp.val ≠ 0 ∧ (atSP State.reset 15).sp.val ≠ 0 ∧ State.reset.sp.val = 0 := by decide

theorem witness_CallPushesTheReturnAddress :
    (atSP State.reset 14).sp.val ≠ 15 ∧ State.reset.sp.val ≠ 15 ∧ (atSP State.reset 15).sp.val = 15 := by decide

/-- A call and a state that still has its stack. -/
theorem witness_ReturnUndoesCall :
    (atSP State.reset 14).sp.val ≠ 15 ∧
    ∃ t, exec (.call 0x300) (atSP State.reset 14) = .next t ∧ ∃ u : State, u.sp = t.sp ∧ u.stack = t.stack :=
  ⟨by decide, _, rfl, _, rfl, rfl⟩

theorem witness_SelfJumpChangesNothing :
    lastWord.fault = none ∧ lastWord.hostMoves = [] ∧ lastWord.pc.toNat = (0xFFE : Addr12).toNat ∧
    lastWord.pc.toNat + 1 < 4096 ∧
    decode (u16 (256 * (lastWord.mem.read lastWord.pc.toNat).toNat + (lastWord.mem.read (lastWord.pc.toNat + 1)).toNat)) =
      .jp 0xFFE := by decide

theorem witness_LdBStoresTheDigits :
    State.reset.mem.wf ∧ (atI State.reset 0xFFD).i.toNat + 2 < 4096 ∧ 4096 ≤ (atI State.reset 0xFFE).i.toNat + 2 := by
  decide

theorem witness_block_transfer :
    State.reset.mem.wf ∧ (atI State.reset 0xFF0).i.toNat + (15 : Reg).val < 4096 ∧
    4096 ≤ (atI State.reset 0xFF1).i.toNat + (15 : Reg).val ∧ (atI State.reset 0xFFF).i.toNat + (0 : Reg).val < 4096 ∧
    4096 ≤ (atI State.reset 0x1000).i.toNat + (0 : Reg).val := by decide

/-- Within the block statements: a stored register at the end of the block, an address on each side of it. -/
theorem witness_StoreRegsStoresTheBlock :
    (15 : Reg).val ≤ (15 : Reg).val ∧ 0xFEF < (atI State.reset 0xFF0).i.toNat ∧
    (atI State.reset 0xFEF).i.toNat + (15 : Reg).val < 0xFFF := by decide

theorem witness_LoadUndoesStore :
    State.reset.mem.wf ∧ (atI elevens 0xFF0).i.toNat + (15 : Reg).val < 4096 ∧
    ∃ t, exec (.storeRegs 15) (atI elevens 0xFF0) = .next t ∧ ∃ u : State, u.mem = t.mem ∧ u.i = (atI elevens 0xFF0).i :=
  ⟨by decide, by decide, _, rfl, ⟨_, rfl, rfl⟩⟩

theorem witness_StoredWordIsFetchedNext :
    State.reset.mem.wf ∧ State.reset.fault = none ∧ State.reset.hostMoves = [] ∧ 1 ≤ (1 : Reg).val ∧
    (atI State.reset 0x202).i.toNat = (atI State.reset 0x202).pc.toNat + 2 ∧
    (atI State.reset 0x202).i.toNat + (1 : Reg).val < 4096 := by decide

/-- The ranges of DRW: no row, the last byte of memory, one byte past it. -/
theorem witness_DrwDrawsTheSprite :
    (0 : Nibble).toNat = 0 ∧ (atI State.reset 0xFFF).i.toNat + (1 : Nibble).toNat - 1 < 4096 ∧
    (2 : Nibble).toNat ≠ 0 ∧ 4096 ≤ (atI State.reset 0xFFF).i.toNat + (2 : Nibble).toNat - 1 := by decide

/-- A sprite that sets pixel (0, 0), which is lit: the clause of a collision; and one that sets no pixel. -/
theorem witness_DrwDrawsTheSprite_pixels :
    spriteSets (Memory.write [] 0xFFF 0x80) 0xFFF 0 0 1 0 0 ∧ Framebuffer.get (lit State.reset 0 0).fb 0 0 = true ∧
    ∀ px py, ¬ spriteSets [] 0xFFF 0 0 0 px py :=
  ⟨⟨0, 0, by decide, by decide, by decide, by decide, by decide⟩, by decide,
    fun _ _ ⟨_, _, _, h, _⟩ => absurd h (Nat.not_lt_zero _)⟩

/-- Two draws of the same sprite, and the premise of the collision clause. -/
theorem witness_SecondDrawRestoresTheFramebuffer :
    (atI (State.reset.storeBytes 0xFFF [0x80]) 0xFFF).i.toNat + (1 : Nibble).toNat - 1 < 4096 ∧
    (∃ t, exec (.drw 0 1 1) (atI (State.reset.storeBytes 0xFFF [0x80]) 0xFFF) = .next t ∧
      t.i = 0xFFF ∧ t.mem = (State.reset.storeBytes 0xFFF [0x80]).mem ∧ t.getV 0 = 0 ∧ t.getV 1 = 0) ∧
    ((State.reset.storeBytes 0xFFF [0x80]).mem.read (0xFFF + 0)).getLsbD 7 = true ∧
    Framebuffer.get State.reset.fb (wrapColumn (0 + (7 - 7))) (wrapRow (0 + 0)) = false :=
  ⟨by decide, ⟨_, rfl, rfl, rfl, by decide, by decide⟩, by decide, by decide⟩

theorem witness_KeySkipsTestTheKey :
    ((regs [(1, 15)]).getV 1).toNat ≤ 15 ∧ 15 < ((regs [(1, 16)]).getV 1).toNat := by decide

theorem witness_KeyWaitTakesTheLowestKey :
    (keysDown State.reset 0x8000).keys ≠ 0 ∧ State.reset.keys = 0 ∧
    ((atPC State.reset 0xFFE).withFetchWord 16 0xF10A).fault = none ∧
    ((atPC State.reset 0xFFE).withFetchWord 16 0xF10A).pc.toNat + 1 < 4096 ∧
    ((atPC State.reset 0xFFE).withFetchWord 16 0xF10A).keys = 0 ∧
    decode (u16 (256 * (((atPC State.reset 0xFFE).withFetchWord 16 0xF10A).mem.read 0xFFE).toNat +
      (((atPC State.reset 0xFFE).withFetchWord 16 0xF10A).mem.read 0xFFF).toNat)) = .ldVxK 1 := by decide

theorem witness_FaultsArePrecise :
    ∃ t, exec (.ldB 0) (atI State.reset 0xFFE) = .next t ∧ t.fault ≠ none ∧ (atI State.reset 0xFFE).fault = none :=
  ⟨_, rfl, by decide, rfl⟩

theorem witness_EachInstructionWritesOnlyItsParts :
    ∃ t, exec (.storeRegs 15) (atI elevens 0xFF0) = .next t := ⟨_, rfl⟩

theorem witness_OnlyFlagWritersChangeVF :
    ∃ t, exec (.addReg 1 2) (regs [(1, 0xFF), (2, 1)]) = .next t ∧
      t.getV 15 ≠ (regs [(1, 0xFF), (2, 1)]).getV 15 := ⟨_, rfl, by decide⟩

theorem witness_NoInstructionReadsST :
    (∃ t, exec (.ldStVx 0) State.reset = .next t) ∧ ∃ t, exec (.ldVxDt 0) State.reset = .next t :=
  ⟨⟨_, rfl⟩, ⟨_, rfl⟩⟩

theorem witness_OnlyKeyInstructionsReadKeys :
    (∃ t, exec (.ldB 3) State.reset = .next t) ∧ ∀ x, Instr.ldB 3 ≠ .skp x ∧ Instr.ldB 3 ≠ .sknp x ∧ Instr.ldB 3 ≠ .ldVxK x :=
  ⟨⟨_, rfl⟩, by decide⟩

theorem witness_StepKeepsMemoryCanonical :
    (atI (regs [(0, 0xFF)]) 0xFFD).mem.wf ∧
    ∃ t, step ((atI (regs [(0, 0xFF)]) 0xFFD).withFetchWord 16 0xF033) = .next t := ⟨by decide, _, rfl⟩

/-- A sound latch that is set, and a tick that keeps it. -/
theorem witness_StepKeepsLatchSound :
    (moves (latched State.reset) [.event .tick]).latchSound ∧ ∃ t, step (moves (latched State.reset) [.event .tick]) = .next t :=
  ⟨fun f h => by cases h; exact ⟨rfl, rfl⟩, _, rfl⟩

theorem witness_StepKeepsStackBottomZero :
    State.reset.stack[0] = 0 ∧ ∃ t, step (State.reset.withFetchWord 16 0x2300) = .next t := ⟨by decide, _, rfl⟩

end Sys2Proof.Tests
end

section
/-! SUPPORT. How an instruction and a step end: exec always answers a next state, which has the latch it started with or
is fault entry; step answers no next state exactly where a faulted CORE is offered no move (spec/00_scope.md R18). -/

namespace Sys2Proof.Machine

/-! ### How an instruction ends -/

/-- `t` has the latch of `s`, or is `s` after fault entry (R105). -/
def State.KeepsLatchOrRaises (s t : State) : Prop := t.fault = s.fault ∨ ∃ c, t = s.raise c

/-- The check-first shape ends by fault entry, or as its effect part does. -/
theorem State.keepsLatchOrRaises_orRaise (s : State) (check : Option FaultCause) {s' : State}
    (h : s'.fault = s.fault) : s.KeepsLatchOrRaises (s.orRaise check s') := by
  cases check with
  | none => exact .inl h
  | some c => exact .inr ⟨c, rfl⟩

/-- The two ends of the key-wait (R102): the lowest pressed key taken, or Wait, which changes nothing. -/
theorem exec_ldVxK_cases (x : Reg) (s : State) :
    (∃ k, exec (.ldVxK x) s = .next (s.setV x (u8 k)).advance) ∨ exec (.ldVxK x) s = .next s := by
  simp only [exec, execLdVxK]
  cases lowestKey s.keys with
  | some k => exact .inl ⟨k, rfl⟩
  | none => exact .inr rfl

/-- Every instruction answers a next state, and touches the latch by fault entry alone. -/
theorem exec_next_keepsLatchOrRaises (i : Instr) (s : State) :
    ∃ t, exec i s = .next t ∧ s.KeepsLatchOrRaises t := by
  cases i with
  | ret | call _ | ldB _ | storeRegs _ | loadRegs _ | drw _ _ _ =>
    exact ⟨_, rfl, s.keepsLatchOrRaises_orRaise _ rfl⟩
  | skp _ | sknp _ => exact ⟨_, rfl, s.keepsLatchOrRaises_orRaise _ (s.skipIf_fault _)⟩
  | seImm _ _ | sneImm _ _ | seReg _ _ | sneReg _ _ => exact ⟨_, rfl, .inl (s.skipIf_fault _)⟩
  | ldVxK x =>
    obtain ⟨k, h⟩ | h := exec_ldVxK_cases x s
    · exact ⟨_, h, .inl rfl⟩
    · exact ⟨_, h, .inl rfl⟩
  | cls | jp _ | jpV0 _ | ldImm _ _ | addImm _ _ | ldReg _ _ | or _ _ | and _ _ | xor _ _ | addReg _ _ | sub _ _
  | shr _ | subn _ _ | shl _ | rnd _ _ | ldI _ | addI _ | ldF _ | ldVxDt _ | ldDtVx _ | ldStVx _ | nop0 _ | nop8 _
  | nopE _ | nopF _ => exact ⟨_, rfl, .inl rfl⟩

/-- The same of a given answer. -/
theorem exec_keepsLatchOrRaises {i : Instr} {s t : State} (h : exec i s = .next t) : s.KeepsLatchOrRaises t := by
  obtain ⟨u, hu, hlatch⟩ := exec_next_keepsLatchOrRaises i s
  cases hu.symm.trans h
  exact hlatch

/-- Every instruction has a next state in every state. -/
theorem exec_total (i : Instr) (s : State) : ∃ t, exec i s = .next t :=
  (exec_next_keepsLatchOrRaises i s).imp fun _ h => h.1

/-! ### How a step ends -/

theorem instrStep_of_fault {s : State} {f : FaultLatch} (h : s.fault = some f) : instrStep s = .fault (.halted f) := by
  simp only [instrStep, h]

/-- Without a latched fault an instruction step has a next state, by the fetch fault or by exec. -/
theorem instrStep_total {s : State} (h : s.fault = none) : ∃ t, instrStep s = .next t := by
  simp only [instrStep, h]
  cases s.fetchFault with
  | some c => exact ⟨_, rfl⟩
  | none => exact exec_total _ s

/-- A CORE offered a step has a next state: faulted it declines, else it takes the step. -/
theorem letRun_total (s : State) : ∃ t, letRun s = .next t := by
  cases h : s.fault with
  | some f => exact ⟨s, by simp [letRun, h]⟩
  | none => simpa [letRun, h] using instrStep_total h

/-- Every move of the host has a next state. -/
theorem hostMove_total (m : HostMove) (s : State) : ∃ t, hostMove m s = .next t := by
  cases m with
  | run => exact letRun_total s
  | event e => exact ⟨_, rfl⟩
  | runBatch between => exact ⟨_, rfl⟩

theorem step_of_no_moves {s : State} (h : s.hostMoves = []) : step s = instrStep s := by
  simp only [step, h]

theorem step_of_move {s : State} {m : HostMove} {rest : List HostMove} (h : s.hostMoves = m :: rest) :
    step s = hostMove m { s with hostMoves := rest } := by
  simp only [step, h]

/-! ### The statements of spec/00_scope.md -/

/-- Settles O9: exec is total, and so is every host move; what is left of step is the instruction step of a CORE with
no move, which stops at a latched fault only. -/
theorem stepStopsOnlyAtLatchedFault : Obligations.StepStopsOnlyAtLatchedFault := by
  refine ⟨exec_total, fun s => ?_⟩
  cases hmoves : s.hostMoves with
  | cons m rest =>
    rw [step_of_move hmoves]
    exact .inl (hostMove_total m _)
  | nil =>
    rw [step_of_no_moves hmoves]
    cases hfault : s.fault with
    | none => exact .inl (instrStep_total hfault)
    | some f => exact .inr ⟨rfl, f, rfl, instrStep_of_fault hfault⟩

/-- Settles O51: a latch that was not set before the instruction is not kept, so it was set by fault entry, which
writes nothing else. -/
theorem faultsArePrecise : Obligations.FaultsArePrecise := by
  intro i s t hnone hexec hfault
  obtain hkept | ⟨c, rfl⟩ := exec_keepsLatchOrRaises hexec
  · exact absurd (hkept.trans hnone) hfault
  · exact ⟨c, rfl⟩

end Sys2Proof.Machine
end

section
/-! SUPPORT. The three invariants of the state (spec/10_state.md R30, R32, R26-R27; spec/60_exceptions.md R104, R105):
memory stays canonical, a latched fault describes the state it stopped in, and the bottom stack entry stays 0. What an
instruction can do to memory, stack and latch is said once, by `exec_completesOrFaults`; each invariant is kept by the
two ends it names, and `step_keeps` carries it over the moves of the host. -/

namespace Sys2Proof.Machine

/-! ### The checks record what the latch must say -/

/-- A range check of a data access, which is at I, records the lowest address outside memory. -/
theorem describes_of_rangeFault {s : State} {n : Nat} {kind : AccessKind} {c : FaultCause} (hkind : kind ≠ .fetch)
    (h : rangeFault s.i.toNat n kind = some c) : (FaultLatch.mk c s.pc).describes s := by
  obtain ⟨-, -, rfl⟩ := rangeFault_eq_some h
  cases kind with
  | fetch => exact absurd rfl hkind
  | read | write => exact ⟨rfl, toNat_faultAddr s.i⟩

theorem describes_of_fetchFault {s : State} {c : FaultCause} (h : s.fetchFault = some c) :
    (FaultLatch.mk c s.pc).describes s := by
  obtain ⟨-, hexceeds, rfl⟩ := rangeFault_eq_some h
  exact ⟨rfl, Nat.le_of_lt_succ hexceeds, toNat_faultAddr s.pc⟩

theorem describes_of_overflowFault {s : State} {c : FaultCause} (h : s.overflowFault = some c) :
    (FaultLatch.mk c s.pc).describes s := by
  rw [State.overflowFault_eq] at h
  obtain ⟨hsp, ⟨⟩⟩ := Option.ite_none_right_eq_some.mp h
  exact ⟨rfl, rfl, hsp⟩

theorem describes_of_underflowFault {s : State} {c : FaultCause} (h : s.underflowFault = some c) :
    (FaultLatch.mk c s.pc).describes s := by
  rw [State.underflowFault_eq] at h
  obtain ⟨hsp, ⟨⟩⟩ := Option.ite_none_right_eq_some.mp h
  exact ⟨rfl, hsp⟩

theorem describes_of_keyIndexFault {s : State} {x : Reg} {c : FaultCause} (h : keyIndexFault (s.getV x) = some c) :
    (FaultLatch.mk c s.pc).describes s := by
  rw [keyIndexFault_eq] at h
  obtain ⟨hk, ⟨⟩⟩ := Option.ite_none_right_eq_some.mp h
  exact ⟨rfl, hk, x, rfl⟩

/-! ### What an instruction does to memory, stack and latch -/

/-- What an instruction that completes may do to the parts the invariants speak of: it keeps the latch, writes memory as
one block below MEM_SIZE at most, and the stack above its bottom at most. -/
structure State.Completes (s t : State) : Prop where
  fault : t.fault = s.fault
  mem : t.mem = s.mem ∨ ∃ a bytes, a + bytes.length ≤ Config.memSize ∧ t.mem = s.mem.writeBytes a bytes
  stack : t.stack = s.stack ∨ ∃ (k : Fin Config.stackDepth) (a : Word), k.val ≠ 0 ∧ t.stack = s.stack.set k.val a

/-- `t` is `s` after a completed instruction, or after fault entry with a cause that describes `s`. -/
def State.CompletesOrFaults (s t : State) : Prop :=
  s.Completes t ∨ ∃ c, (FaultLatch.mk c s.pc).describes s ∧ t = s.raise c

/-- An instruction that writes neither memory, stack nor latch completes. -/
theorem State.Completes.of_eq {s t : State} (hfault : t.fault = s.fault) (hmem : t.mem = s.mem)
    (hstack : t.stack = s.stack) : s.Completes t := ⟨hfault, .inl hmem, .inl hstack⟩

theorem State.Completes.advance {s t : State} (h : s.Completes t) : s.Completes t.advance :=
  ⟨h.fault, h.mem, h.stack⟩

theorem State.completes_skipIf (s : State) (c : Bool) : s.Completes (s.skipIf c) :=
  .of_eq (s.skipIf_fault c) (s.skipIf_mem c) (s.skipIf_stack c)

theorem State.completes_loadBlock (s : State) (x : Reg) (a : Nat) : s.Completes (s.loadBlock x a) :=
  .of_eq (s.loadBlock_fault x a) (s.loadBlock_mem x a) (s.loadBlock_stack x a)

theorem State.completes_drawSprite (s : State) (ox oy : Nat) (rows : List Byte) :
    s.Completes (s.drawSprite ox oy rows) :=
  .of_eq (s.drawSprite_fault ox oy rows) (s.drawSprite_mem ox oy rows) (s.drawSprite_stack ox oy rows)

/-- A store under its range check stays below MEM_SIZE. -/
theorem State.completes_storeBytes {s : State} {bytes : List Byte} (hpos : 0 < bytes.length)
    (h : rangeFault s.i.toNat bytes.length .write = none) : s.Completes (s.storeBytes s.i.toNat bytes) where
  fault := rfl
  mem := .inr ⟨s.i.toNat, bytes, ((rangeFault_eq_none _ _ _).mp h).resolve_left hpos.ne', rfl⟩
  stack := .inl rfl

/-- A call under its check writes the entry of SP + 1, which is not the bottom one. -/
theorem State.completes_call {s : State} (h : s.overflowFault = none) (ret target : Word) :
    s.Completes ((s.push ret).setPC target) where
  fault := rfl
  mem := .inl rfl
  stack := by
    have hsp : s.sp.val ≠ 15 := by simpa [State.overflowFault_eq] using h
    exact .inr ⟨s.sp + 1, ret, by simp [sp_add_one s.sp hsp], rfl⟩

/-- The check-first shape: what the check found describes the state, and the effect is run only if it found nothing. -/
theorem State.completesOrFaults_orRaise {s s' : State} {check : Option FaultCause}
    (hfaults : ∀ c, check = some c → (FaultLatch.mk c s.pc).describes s) (hcompletes : check = none → s.Completes s') :
    s.CompletesOrFaults (s.orRaise check s') := by
  cases check with
  | none => exact .inl (hcompletes rfl)
  | some c => exact .inr ⟨c, hfaults c rfl, rfl⟩

theorem exec_completesOrFaults {i : Instr} {s t : State} (h : exec i s = .next t) : s.CompletesOrFaults t := by
  cases i with
  | ret =>
    cases h
    exact s.completesOrFaults_orRaise (fun _ => describes_of_underflowFault) fun _ => .of_eq rfl rfl rfl
  | call _ =>
    cases h
    exact s.completesOrFaults_orRaise (fun _ => describes_of_overflowFault) fun hc => s.completes_call hc _ _
  | skp _ | sknp _ =>
    cases h
    exact s.completesOrFaults_orRaise (fun _ => describes_of_keyIndexFault) fun _ => s.completes_skipIf _
  | ldB _ =>
    cases h
    exact s.completesOrFaults_orRaise (fun _ => describes_of_rangeFault nofun)
      fun hc => (s.completes_storeBytes (bytes := decimalDigits _) (by simp) hc).advance
  | storeRegs x =>
    cases h
    exact s.completesOrFaults_orRaise (fun _ => describes_of_rangeFault nofun)
      fun hc => (s.completes_storeBytes (by simp) (by rwa [s.length_regBlock])).advance
  | loadRegs _ =>
    cases h
    exact s.completesOrFaults_orRaise (fun _ => describes_of_rangeFault nofun)
      fun _ => (s.completes_loadBlock _ _).advance
  | drw _ _ _ =>
    cases h
    exact s.completesOrFaults_orRaise (fun _ => describes_of_rangeFault nofun)
      fun _ => (s.completes_drawSprite _ _ _).advance
  | seImm _ _ | sneImm _ _ | seReg _ _ | sneReg _ _ => cases h; exact .inl (s.completes_skipIf _)
  | ldVxK x =>
    obtain ⟨_, hk⟩ | hk := exec_ldVxK_cases x s <;> cases hk.symm.trans h <;> exact .inl (.of_eq rfl rfl rfl)
  | cls | jp _ | jpV0 _ | ldImm _ _ | addImm _ _ | ldReg _ _ | or _ _ | and _ _ | xor _ _ | addReg _ _ | sub _ _
  | shr _ | subn _ _ | shl _ | rnd _ _ | ldI _ | addI _ | ldF _ | ldVxDt _ | ldDtVx _ | ldStVx _ | nop0 _ | nop8 _
  | nopE _ | nopF _ => cases h; exact .inl (.of_eq rfl rfl rfl)

/-- An instruction step starts with no latch, and ends as an instruction or a fetch fault does. -/
theorem instrStep_completesOrFaults {s t : State} (h : instrStep s = .next t) :
    s.fault = none ∧ s.CompletesOrFaults t := by
  obtain ⟨hnone, ⟨c, hc, rfl⟩ | ⟨-, hexec⟩⟩ := instrStep_cases h
  · exact ⟨hnone, .inr ⟨c, describes_of_fetchFault hc, rfl⟩⟩
  · exact ⟨hnone, exec_completesOrFaults hexec⟩

/-! ### Memory -/

theorem State.Completes.mem_wf {s t : State} (h : s.Completes t) (hm : s.mem.wf) : t.mem.wf := by
  obtain hkept | ⟨a, bytes, hfits, hwritten⟩ := h.mem
  · exact hkept ▸ hm
  · exact hwritten ▸ Memory.wf_writeBytes hm bytes hfits

theorem instrStep_keeps_mem_wf {s t : State} (hm : s.mem.wf) (h : instrStep s = .next t) : t.mem.wf := by
  obtain ⟨-, hdone | ⟨c, -, rfl⟩⟩ := instrStep_completesOrFaults h
  · exact hdone.mem_wf hm
  · exact hm

/-- Settles O57: only the stores write memory, each as one block that its range check keeps below MEM_SIZE. -/
theorem stepKeepsMemoryCanonical : Obligations.StepKeepsMemoryCanonical := fun _ _ =>
  step_keeps (P := fun s => s.mem.wf) (fun _ _ => instrStep_keeps_mem_wf) (fun _ hm => hm) (fun _ hm => hm)
    (fun _ _ hm => hm) (fun _ _ hm => hm) (fun _ _ hm => hm)

/-! ### The latch -/

theorem State.latchSound_of_no_fault {s : State} (h : s.fault = none) : s.latchSound := fun f hf => by
  cases h.symm.trans hf

/-- Fault entry moves nothing that the latch speaks of. -/
theorem State.latchSound_raise {s : State} {c : FaultCause} (h : (FaultLatch.mk c s.pc).describes s) :
    (s.raise c).latchSound := fun f hf => by
  cases hf
  exact h

theorem instrStep_latchSound {s t : State} (h : instrStep s = .next t) : t.latchSound := by
  obtain ⟨hnone, hdone | ⟨c, hc, rfl⟩⟩ := instrStep_completesOrFaults h
  · exact State.latchSound_of_no_fault (hdone.fault.trans hnone)
  · exact State.latchSound_raise hc

/-- Settles O58: an instruction step leaves no latch or one that its check made; ticks, key updates, the batch ports and
the list of moves touch nothing that a latch speaks of, and reset clears it. -/
theorem stepKeepsLatchSound : Obligations.StepKeepsLatchSound := fun _ _ =>
  step_keeps (P := State.latchSound) (fun _ _ _ => instrStep_latchSound) (fun _ hs => hs)
    (fun _ _ => State.latchSound_of_no_fault rfl) (fun _ _ hs => hs) (fun _ _ hs => hs) (fun _ _ hs => hs)

/-! ### The bottom of the stack -/

theorem State.Completes.stack_bottom {s t : State} (h : s.Completes t) : t.stack[0] = s.stack[0] := by
  obtain hkept | ⟨k, a, hk, hwritten⟩ := h.stack
  · rw [hkept]
  · rw [hwritten, Vector.getElem_set_ne _ _ hk]

theorem instrStep_keeps_stack_bottom {s t : State} (h : instrStep s = .next t) : t.stack[0] = s.stack[0] := by
  obtain ⟨-, hdone | ⟨c, -, rfl⟩⟩ := instrStep_completesOrFaults h
  · exact hdone.stack_bottom
  · rfl

/-- Settles O59: a call writes above the bottom entry, and reset makes it 0. -/
theorem stepKeepsStackBottomZero : Obligations.StepKeepsStackBottomZero := fun _ _ =>
  step_keeps (P := fun s => s.stack[0] = 0) (fun _ _ hs h => (instrStep_keeps_stack_bottom h).trans hs)
    (fun _ hs => hs) (fun s _ => by simp) (fun _ _ hs => hs) (fun _ _ hs => hs) (fun _ _ hs => hs)

/-- Settles O60: nothing is listed in memory, nothing is latched, and every stack entry is 0. -/
theorem resetMeetsTheInvariants : Obligations.ResetMeetsTheInvariants :=
  ⟨⟨.nil, fun _ hc => absurd hc List.not_mem_nil⟩, State.latchSound_of_no_fault rfl, by simp [State.reset]⟩

end Sys2Proof.Machine
end

section
/-! SUPPORT. What the registers and the inputs of the state may influence (spec/10_state.md R21, R22, R28, R29): VF is
written as a flag or as a destination only, ST is read by nothing, and KEYS by the three key instructions alone. -/

namespace Sys2Proof.Machine

/-! ### VF -/

theorem State.getV_orRaise {s s' : State} {q : Reg} (h : s'.getV q = s.getV q) (check : Option FaultCause) :
    (s.orRaise check s').getV q = s.getV q := by
  cases check with
  | none => exact h
  | some c => exact s.raise_getV c q

/-- A write to a destination that is not VF keeps VF. -/
theorem State.getV_vF_setV {x : Reg} (h : (x == Reg.vF) = false) (s : State) (b : Byte) :
    (s.setV x b).getV Reg.vF = s.getV Reg.vF := by
  rw [State.getV_setV, if_neg (beq_eq_false_iff_ne.mp h)]

/-- A block load that ends below VF keeps VF. -/
theorem State.getV_vF_loadBlock {x : Reg} (h : (x == Reg.vF) = false) (s : State) (a : Nat) :
    (s.loadBlock x a).getV Reg.vF = s.getV Reg.vF := by
  have hx : x ≠ Reg.vF := beq_eq_false_iff_ne.mp h
  have hbelow : ¬ Reg.vF.val ≤ x.val := fun hle => hx (Fin.le_antisymm (Fin.le_last x) hle)
  rw [State.getV_loadBlock, if_neg hbelow]

theorem exec_keeps_vF {i : Instr} {s t : State} (hno : mayWriteVF i = false) (h : exec i s = .next t) :
    t.getV Reg.vF = s.getV Reg.vF := by
  cases i with
  | addReg _ _ | sub _ _ | shr _ | subn _ _ | shl _ | drw _ _ _ => cases hno
  | ldImm _ _ | addImm _ _ | rnd _ _ | ldReg _ _ | or _ _ | and _ _ | xor _ _ | ldVxDt _ =>
    cases h
    exact State.getV_vF_setV hno s _
  | ldVxK x =>
    obtain ⟨k, hk⟩ | hk := exec_ldVxK_cases x s <;> cases hk.symm.trans h
    · exact State.getV_vF_setV hno s _
    · rfl
  | loadRegs _ => cases h; exact State.getV_orRaise ((State.advance_getV _ _).trans (State.getV_vF_loadBlock hno s _)) _
  | ret | call _ | ldB _ | storeRegs _ => cases h; exact State.getV_orRaise (by rfl) _
  | skp _ | sknp _ => cases h; exact State.getV_orRaise (s.skipIf_getV _ _) _
  | seImm _ _ | sneImm _ _ | seReg _ _ | sneReg _ _ => cases h; exact s.skipIf_getV _ _
  | cls | jp _ | jpV0 _ | ldI _ | addI _ | ldF _ | ldDtVx _ | ldStVx _ | nop0 _ | nop8 _ | nopE _ | nopF _ =>
    cases h
    rfl

/-- Settles O54, by contraposition: an instruction that is none of the listed ones keeps VF. -/
theorem onlyFlagWritersChangeVF : Obligations.OnlyFlagWritersChangeVF := fun _ _ _ h hchanged =>
  Bool.of_not_eq_false fun hno => hchanged (exec_keeps_vF hno h)

/-! ### ST and KEYS -/

/-- Another ST and another KEYS, each given as a change of the old value. -/
def State.mapStKeys (f : Byte → Byte) (g : Word → Word) (s : State) : State :=
  { s with st := f s.st, keys := g s.keys }

section
variable (f : Byte → Byte) (g : Word → Word)

/-- The check-first shape, whose effect part `t'` runs on the changed state. -/
theorem State.mapStKeys_orRaise {s s' t' : State} {check : Option FaultCause} (h : t' = s'.mapStKeys f g) :
    (s.mapStKeys f g).orRaise check t' = (s.orRaise check s').mapStKeys f g := by
  subst h
  cases check <;> rfl

theorem State.mapStKeys_skipIf (s : State) (c : Bool) :
    (s.mapStKeys f g).skipIf c = (s.skipIf c).mapStKeys f g := by
  cases c <;> rfl

theorem State.mapStKeys_advance (s : State) : (s.mapStKeys f g).advance = s.advance.mapStKeys f g := rfl

theorem State.mapStKeys_loadBlock (s : State) (x : Reg) (a : Nat) :
    (s.mapStKeys f g).loadBlock x a = (s.loadBlock x a).mapStKeys f g := by
  simp only [State.loadBlock, State.mapStKeys, State.getV]

/-- The changed ST shows again after every instruction but Fx18, which overwrites it. -/
def stChangeAfter (i : Instr) : Byte → Byte :=
  match i with
  | .ldStVx _ => id
  | _ => f

/-- Two states that differ in ST, and in KEYS unless the instruction reads them, lead to next states that differ in the
same way. -/
theorem exec_mapStKeys {i : Instr} {s t : State} (h : exec i s = .next t)
    (hkeys : (∀ x, i ≠ .skp x ∧ i ≠ .sknp x ∧ i ≠ .ldVxK x) ∨ g s.keys = s.keys) :
    exec i (s.mapStKeys f g) = .next (t.mapStKeys (stChangeAfter f i) g) := by
  have hkey (hreads : ¬ ∀ x, i ≠ .skp x ∧ i ≠ .sknp x ∧ i ≠ .ldVxK x) : (s.mapStKeys f g).keys = s.keys :=
    hkeys.resolve_left hreads
  cases i with
  | ret | call _ | ldB _ | storeRegs _ | drw _ _ _ =>
    cases h
    exact congrArg Host.Outcome.next (State.mapStKeys_orRaise f g rfl)
  | loadRegs x =>
    cases h
    have hload := congrArg State.advance (s.mapStKeys_loadBlock f g x s.i.toNat)
    rw [State.mapStKeys_advance] at hload
    exact congrArg Host.Outcome.next (State.mapStKeys_orRaise f g hload)
  | seImm _ _ | sneImm _ _ | seReg _ _ | sneReg _ _ =>
    cases h
    exact congrArg Host.Outcome.next (State.mapStKeys_skipIf f g s _)
  | skp x =>
    cases h
    have hsame := hkey fun hno => (hno x).1 rfl
    simp only [exec, execSkp, State.keyDown, hsame, State.mapStKeys_skipIf]
    exact congrArg Host.Outcome.next (State.mapStKeys_orRaise f g rfl)
  | sknp x =>
    cases h
    have hsame := hkey fun hno => (hno x).2.1 rfl
    simp only [exec, execSknp, State.keyDown, hsame, State.mapStKeys_skipIf]
    exact congrArg Host.Outcome.next (State.mapStKeys_orRaise f g rfl)
  | ldVxK x =>
    have hsame := hkey fun hno => (hno x).2.2 rfl
    simp only [exec, execLdVxK, hsame] at h ⊢
    cases hlow : lowestKey s.keys with
    | none | some _ => rw [hlow] at h; cases h; rfl
  | cls | jp _ | jpV0 _ | ldImm _ _ | addImm _ _ | ldReg _ _ | or _ _ | and _ _ | xor _ _ | addReg _ _ | sub _ _
  | shr _ | subn _ _ | shl _ | rnd _ _ | ldI _ | addI _ | ldF _ | ldVxDt _ | ldDtVx _ | ldStVx _ | nop0 _ | nop8 _
  | nopE _ | nopF _ =>
    cases h
    rfl

end

/-- Settles O55: the case of another ST and the same KEYS. -/
theorem noInstructionReadsST : Obligations.NoInstructionReadsST := by
  intro i s t b h
  have hmap := exec_mapStKeys (fun _ => b) id h (.inr rfl)
  cases i <;> exact hmap

/-- Settles O56: the case of the same ST and other KEYS. -/
theorem onlyKeyInstructionsReadKeys : Obligations.OnlyKeyInstructionsReadKeys := by
  intro i s t k h hkeys
  have hmap := exec_mapStKeys id (fun _ => k) h (.inl hkeys)
  have hst : stChangeAfter id i = id := by cases i <;> rfl
  rwa [hst] at hmap

end Sys2Proof.Machine
end

section
/-! SUPPORT. The timers under any number of ticks (spec/10_state.md R28, spec/60_exceptions.md R110), what the host's
moves do to a faulted CORE (R32, R105, R107, R112), and the values after reset (spec/10_state.md R35). -/

namespace Sys2Proof.Machine

/-! ### Ticks -/

theorem toNat_iterate_countDown (n : Nat) (b : Byte) : (Nat.iterate countDown n b).toNat = b.toNat - n := by
  induction n generalizing b with
  | zero => rfl
  | succ n ih => rw [Function.iterate_succ_apply, ih, toNat_countDown]; omega

theorem State.iterate_tick (n : Nat) (s : State) :
    Nat.iterate State.tick n s = (s.setDT (Nat.iterate countDown n s.dt)).setST (Nat.iterate countDown n s.st) := by
  induction n generalizing s with
  | zero => rfl
  | succ n ih => rw [Function.iterate_succ_apply, ih]; rfl

theorem State.unchangedExcept_setDT_setST (s : State) (d e : Byte) :
    ((s.setDT d).setST e).unchangedExcept s [.dt, .st] := by
  constructor <;> simp

/-- Settles O15: n ticks count each timer down n times, and counting down is subtraction that stops at 0. -/
theorem ticksStopAtZero : Obligations.TicksStopAtZero := by
  intro n s
  rw [State.iterate_tick]
  exact ⟨toNat_iterate_countDown n s.dt, toNat_iterate_countDown n s.st, s.unchangedExcept_setDT_setST _ _⟩

/-! ### A faulted CORE -/

section
variable {s : State} {f : FaultLatch} (h : s.fault = some f)
include h

theorem letRun_of_fault : letRun s = .next s := by
  simp [letRun, h]

theorem State.waits_of_fault : s.waits = false :=
  Bool.eq_false_iff.mpr fun hw => by cases h.symm.trans (s.waits_iff.mp hw).1

/-- A batch of any size on a faulted CORE ends before its first step (R112). -/
theorem State.runBatch_of_fault (size : Nat) (between : List (List HostEvent)) :
    s.runBatch (size + 1) between = { s with batch := ⟨.faulted, 0, true⟩ } := by
  simp [State.runBatch, batchFrom, State.hostEvents, State.waits_of_fault h, instrStep_of_fault h]

end

/-- Settles O8: with no move left the instruction step halts; each move of the host is played as its own rule says. -/
theorem faultedCoreTakesNoStep : Obligations.FaultedCoreTakesNoStep := by
  intro s f hf
  refine ⟨fun hm => ?_, fun rest hm => ?_, fun between rest hm => ?_, fun rest hm => ?_, fun rest hm => ?_⟩
  · rw [step_of_no_moves hm, instrStep_of_fault hf]
  · rw [step_of_move hm]
    exact letRun_of_fault (s := { s with hostMoves := rest }) hf
  · rw [step_of_move hm]
    exact congrArg Host.Outcome.next
      (State.runBatch_of_fault (s := { s with hostMoves := rest }) hf Config.batchSizeLessOne between)
  · exact ⟨_, step_of_move hm, hf, toNat_countDown s.dt⟩
  · exact ⟨_, step_of_move hm, rfl⟩

/-! ### The reset state -/

/-- Settles O13: the table of R35, read off the definition. -/
theorem resetStateHoldsTheTableValues : Obligations.ResetStateHoldsTheTableValues :=
  ⟨fun r => by simp [State.reset, State.getV], rfl, rfl, rfl, fun k => by simp [State.reset], rfl, rfl, rfl⟩

end Sys2Proof.Machine
end

section
/-! SUPPORT. Self-modifying code (spec/20_memory.md R47): the block store of `Fx55` (R89), seen by the fetch of the
next step (R52). -/

namespace Sys2Proof

/-- The big-endian word of two bytes as a sum. -/
theorem wordOfBytes_eq_u16 (hi lo : Byte) : wordOfBytes hi lo = u16 (256 * hi.toNat + lo.toNat) :=
  BitVec.eq_of_toNat_eq (by rw [toNat_wordOfBytes, BitVec.toNat_ofNat]; omega)

end Sys2Proof

namespace Sys2Proof.Machine

/-- A CORE with no latched fault, both of whose instruction bytes are in memory, runs the word at PC. -/
theorem instrStep_of_fits {s : State} (hfault : s.fault = none) (hfits : s.pc.toNat + 2 ≤ Config.memSize) :
    instrStep s = exec (decode s.fetchWord) s := by
  simp only [instrStep, hfault, s.fetchFault_eq_none.mpr hfits]

/-- The same of a step, with no host move pending. -/
theorem step_of_fits {s : State} (hfault : s.fault = none) (hmoves : s.hostMoves = [])
    (hfits : s.pc.toNat + 2 ≤ Config.memSize) : step s = exec (decode s.fetchWord) s :=
  (step_of_no_moves hmoves).trans (instrStep_of_fits hfault hfits)

/-- A block store inside memory completes. -/
theorem exec_storeRegs_of_fits {x : Reg} {s : State} (hfits : s.i.toNat + x.val < Config.memSize) :
    exec (.storeRegs x) s = .next (s.storeBytes s.i.toNat (s.regBlock x)).advance := by
  rw [exec, execStoreRegs, rangeFault_of_fits (by omega), State.orRaise_none]

/-- What a block store leaves at the k-th address of the block is Vk. -/
theorem Memory.read_writeBytes_regBlock {m : Memory} (hm : m.sorted) (s : State) (a : Nat) {x k : Reg}
    (hk : k.val ≤ x.val) : (m.writeBytes a (s.regBlock x)).read (a + k.val) = s.getV k := by
  rw [Memory.read_writeBytes hm, if_pos (Nat.le_add_right ..), Nat.add_sub_cancel_left, s.getD_regBlock x k _ hk]

/-- The default advance from an address below 0xFFFE does not wrap. -/
theorem State.toNat_advance_pc {s : State} (h : s.pc.toNat + 2 < 65536) : s.advance.pc.toNat = s.pc.toNat + 2 :=
  BitVec.toNat_add_of_lt h

/-- After a block store of V0 and V1 at least, the word at the block's start is V0 ++ V1. -/
theorem State.fetchWord_storeBytes_regBlock {s : State} {x : Reg} (hm : s.mem.sorted) (hx : 1 ≤ x.val) {t : State}
    {a : Nat} (hpc : t.pc.toNat = a) (hmem : t.mem = s.mem.writeBytes a (s.regBlock x)) :
    t.fetchWord = u16 (256 * (s.getV 0).toNat + (s.getV 1).toNat) := by
  have hfirst : t.mem.read a = s.getV 0 := hmem ▸ Memory.read_writeBytes_regBlock hm s a (k := 0) (Nat.zero_le _)
  have hsecond : t.mem.read (a + 1) = s.getV 1 := hmem ▸ Memory.read_writeBytes_regBlock hm s a (k := 1) hx
  rw [State.fetchWord, hpc, hfirst, hsecond, wordOfBytes_eq_u16]

/-- Settles O43: the store advances PC to I, where the block starts, so the next fetch reads V0 and V1. -/
theorem storedWordIsFetchedNext : Obligations.StoredWordIsFetchedNext := by
  intro x s hm hfault hmoves hx hi hfits
  refine ⟨_, exec_storeRegs_of_fits hfits, ?_⟩
  have hpc : (s.storeBytes s.i.toNat (s.regBlock x)).advance.pc.toNat = s.i.toNat :=
    (State.toNat_advance_pc (show s.pc.toNat + 2 < 65536 by omega)).trans hi.symm
  have hfetch : s.i.toNat + 2 ≤ 4096 := by omega
  rw [← State.fetchWord_storeBytes_regBlock hm.1 hx hpc rfl]
  exact step_of_fits hfault hmoves (hpc.symm ▸ hfetch)

end Sys2Proof.Machine
end

section
/-! SUPPORT. The encoder against the decoder (spec/30_encoding.md R50-R57): a packed word has the fields it was packed
from and is given back by packing its fields; the canonical form of a word is a packing of some of its fields; so
decoding undoes encoding, and encoding undoes decoding up to the ignored fields. -/

namespace Sys2Proof

/-! ### The fields of a packed word -/

@[simp] theorem fieldHeader_packNNN (h : BitVec 4) (nnn : Addr12) : fieldHeader (packNNN h nnn) = h := by
  rw [fieldHeader_eq_iff, toNat_packNNN]
  omega

@[simp] theorem fieldNNN_packNNN (h : BitVec 4) (nnn : Addr12) : fieldNNN (packNNN h nnn) = nnn := by
  rw [fieldNNN_eq_iff, toNat_packNNN]
  omega

@[simp] theorem fieldHeader_packXNN (h : BitVec 4) (x : Reg) (nn : Byte) : fieldHeader (packXNN h x nn) = h := by
  rw [fieldHeader_eq_iff, toNat_packXNN]
  omega

@[simp] theorem fieldX_packXNN (h : BitVec 4) (x : Reg) (nn : Byte) : fieldX (packXNN h x nn) = x := by
  rw [fieldX_eq_iff, toNat_packXNN]
  omega

@[simp] theorem fieldNN_packXNN (h : BitVec 4) (x : Reg) (nn : Byte) : fieldNN (packXNN h x nn) = nn := by
  rw [fieldNN_eq_iff, toNat_packXNN]
  omega

@[simp] theorem fieldHeader_packXYN (h : BitVec 4) (x y : Reg) (n : Nibble) : fieldHeader (packXYN h x y n) = h := by
  rw [fieldHeader_eq_iff, toNat_packXYN]
  omega

@[simp] theorem fieldX_packXYN (h : BitVec 4) (x y : Reg) (n : Nibble) : fieldX (packXYN h x y n) = x := by
  rw [fieldX_eq_iff, toNat_packXYN]
  omega

@[simp] theorem fieldY_packXYN (h : BitVec 4) (x y : Reg) (n : Nibble) : fieldY (packXYN h x y n) = y := by
  rw [fieldY_eq_iff, toNat_packXYN]
  omega

@[simp] theorem fieldN_packXYN (h : BitVec 4) (x y : Reg) (n : Nibble) : fieldN (packXYN h x y n) = n := by
  rw [fieldN_eq_iff, toNat_packXYN]
  omega

/-! ### A word is packed from its fields -/

theorem packNNN_fields {w : Word} {h : BitVec 4} (hw : fieldHeader w = h) : packNNN h (fieldNNN w) = w := by
  apply BitVec.eq_of_toNat_eq
  rw [toNat_packNNN, ← hw, toNat_fieldHeader, toNat_fieldNNN]
  omega

theorem packXNN_fields {w : Word} {h : BitVec 4} (hw : fieldHeader w = h) :
    packXNN h (fieldX w) (fieldNN w) = w := by
  apply BitVec.eq_of_toNat_eq
  rw [toNat_packXNN, ← hw, toNat_fieldHeader, val_fieldX, toNat_fieldNN]
  omega

theorem packXYN_fields {w : Word} {h : BitVec 4} (hw : fieldHeader w = h) :
    packXYN h (fieldX w) (fieldY w) (fieldN w) = w := by
  apply BitVec.eq_of_toNat_eq
  rw [toNat_packXYN, ← hw, toNat_fieldHeader, val_fieldX, val_fieldY, toNat_fieldN]
  omega

/-! ### Packed words as the formulas of the opcode table -/

theorem u16_eq_packXNN {k : Nat} (h : BitVec 4) (x : Reg) (nn : Byte)
    (hk : k = 4096 * h.toNat + 256 * x.val + nn.toNat) : u16 k = packXNN h x nn := by
  apply BitVec.eq_of_toNat_eq
  rw [toNat_packXNN, BitVec.toNat_ofNat]
  omega

theorem u16_eq_packXYN {k : Nat} (h : BitVec 4) (x y : Reg) (n : Nibble)
    (hk : k = 4096 * h.toNat + 256 * x.val + 16 * y.val + n.toNat) : u16 k = packXYN h x y n := by
  apply BitVec.eq_of_toNat_eq
  rw [toNat_packXYN, BitVec.toNat_ofNat]
  omega

/-! ### Unrecognised secondary codes (R55) -/

theorem fieldNN_mem_knownCodes0_iff {w : Word} : fieldNN w ∈ knownCodes0 ↔ w.toNat % 256 ∈ [0xE0, 0xEE] := by
  simp [knownCodes0, fieldNN_eq_iff]

theorem fieldN_mem_knownCodes8_iff {w : Word} :
    fieldN w ∈ knownCodes8 ↔ w.toNat % 16 ∈ [0x0, 0x1, 0x2, 0x3, 0x4, 0x5, 0x6, 0x7, 0xE] := by
  simp [knownCodes8, fieldN_eq_iff]

theorem fieldNN_mem_knownCodesE_iff {w : Word} : fieldNN w ∈ knownCodesE ↔ w.toNat % 256 ∈ [0x9E, 0xA1] := by
  simp [knownCodesE, fieldNN_eq_iff]

theorem fieldNN_mem_knownCodesF_iff {w : Word} :
    fieldNN w ∈ knownCodesF ↔ w.toNat % 256 ∈ [0x07, 0x0A, 0x15, 0x18, 0x1E, 0x29, 0x33, 0x55, 0x65] := by
  simp [knownCodesF, fieldNN_eq_iff]

theorem decode0_of_unknown {w : Word} (h : fieldNN w ∉ knownCodes0) : decode0 w = .nop0 (fieldNN w) := by
  simp only [knownCodes0, List.mem_cons, List.not_mem_nil, or_false, not_or] at h
  simp only [decode0, h, if_false]

theorem decode8_of_unknown {w : Word} (h : fieldN w ∉ knownCodes8) : decode8 w = .nop8 (fieldN w) := by
  simp only [knownCodes8, List.mem_cons, List.not_mem_nil, or_false, not_or] at h
  simp only [decode8, h, if_false]

theorem decodeE_of_unknown {w : Word} (h : fieldNN w ∉ knownCodesE) : decodeE w = .nopE (fieldNN w) := by
  simp only [knownCodesE, List.mem_cons, List.not_mem_nil, or_false, not_or] at h
  simp only [decodeE, h, if_false]

theorem decodeF_of_unknown {w : Word} (h : fieldNN w ∉ knownCodesF) : decodeF w = .nopF (fieldNN w) := by
  simp only [knownCodesF, List.mem_cons, List.not_mem_nil, or_false, not_or] at h
  simp only [decodeF, h, if_false]

theorem wellFormed_nop0 (nn : Byte) : (Instr.nop0 nn).wellFormed = true ↔ nn ∉ knownCodes0 := by
  simp [Instr.wellFormed]

theorem wellFormed_nop8 (n : Nibble) : (Instr.nop8 n).wellFormed = true ↔ n ∉ knownCodes8 := by
  simp [Instr.wellFormed]

theorem wellFormed_nopE (nn : Byte) : (Instr.nopE nn).wellFormed = true ↔ nn ∉ knownCodesE := by
  simp [Instr.wellFormed]

theorem wellFormed_nopF (nn : Byte) : (Instr.nopF nn).wellFormed = true ↔ nn ∉ knownCodesF := by
  simp [Instr.wellFormed]

/-! ### Decoding by class -/

theorem decode_of_header0 {w : Word} (h : fieldHeader w = 0x0) : decode w = decode0 w := by
  simp [decode, h]

theorem decode_of_header8 {w : Word} (h : fieldHeader w = 0x8) : decode w = decode8 w := by
  simp [decode, h]

theorem decode_of_headerE {w : Word} (h : fieldHeader w = 0xE) : decode w = decodeE w := by
  simp [decode, h]

theorem decode_of_headerF {w : Word} (h : fieldHeader w = 0xF) : decode w = decodeF w := by
  simp [decode, h]

/-! ### Decoding a packed word -/

/-- Settles O1: the decoder finds in the packed word the header and the secondary code of the instruction's row, and
with them its operands. -/
theorem decodeInvertsEncode : Obligations.DecodeInvertsEncode := by
  intro i hwf
  cases i with
  | nop0 nn =>
    rw [wellFormed_nop0] at hwf
    simp [encode, decode_of_header0, decode0_of_unknown, hwf]
  | nop8 n =>
    rw [wellFormed_nop8] at hwf
    simp [encode, decode_of_header8, decode8_of_unknown, hwf]
  | nopE nn =>
    rw [wellFormed_nopE] at hwf
    simp [encode, decode_of_headerE, decodeE_of_unknown, hwf]
  | nopF nn =>
    rw [wellFormed_nopF] at hwf
    simp [encode, decode_of_headerF, decodeF_of_unknown, hwf]
  | cls | ret => simp [encode, decode_of_header0, decode0]
  | ldReg _ _ | or _ _ | and _ _ | xor _ _ | addReg _ _ | sub _ _ | shr _ | subn _ _ | shl _ =>
    simp [encode, decode_of_header8, decode8]
  | skp _ | sknp _ => simp [encode, decode_of_headerE, decodeE]
  | ldVxDt _ | ldVxK _ | ldDtVx _ | ldStVx _ | addI _ | ldF _ | ldB _ | storeRegs _ | loadRegs _ =>
    simp [encode, decode_of_headerF, decodeF]
  | jp _ | call _ | ldI _ | jpV0 _ | seImm _ _ | sneImm _ _ | ldImm _ _ | addImm _ _ | rnd _ _ | seReg _ _
  | sneReg _ _ | drw _ _ _ => simp [encode, decode]


/-- Settles O3: the words with an ignored field are packed words, in which decode does not look at that field. -/
theorem ignoredFieldsDoNotMatter : Obligations.IgnoredFieldsDoNotMatter := by
  refine ⟨fun x => ?_, fun x y n => ?_, fun x y => ?_, rfl, rfl, fun x y => ?_, fun x => ?_⟩
  · rw [u16_eq_packXNN 0x0 x 0xE0 (by simp; omega), u16_eq_packXNN 0x0 x 0xEE (by simp; omega)]
    simp [decode_of_header0, decode0]
  · rw [u16_eq_packXYN 0x5 x y n (by simp), u16_eq_packXYN 0x9 x y n (by simp)]
    simp [decode]
  · rw [u16_eq_packXYN 0x8 x y 0x6 (by simp; omega), u16_eq_packXYN 0x8 x y 0xE (by simp; omega)]
    simp [decode_of_header8, decode8]
  · exact ⟨(u16_eq_packXYN 0x5 x y 0x0 (by simp)).symm, (u16_eq_packXYN 0x9 x y 0x0 (by simp)).symm⟩
  · exact ⟨(u16_eq_packXYN 0x8 x 0 0x6 (by simp; omega)).symm, (u16_eq_packXYN 0x8 x 0 0xE (by simp; omega)).symm⟩

/-- Settles O5, by evaluating the decoder on each of the words. -/
theorem writtenOutWordsDecode : Obligations.WrittenOutWordsDecode := by
  unfold Obligations.WrittenOutWordsDecode
  decide

end Sys2Proof

namespace Sys2Proof.Machine

/-! ### The canonical form of a word, packed from the fields it keeps -/

section
variable {w : Word}

theorem canonicalWord_of_header0 (h : fieldHeader w = 0x0) : canonicalWord w = packXNN 0x0 0 (fieldNN w) := by
  have hclass : w.toNat / 4096 = 0x0 := fieldHeader_eq_iff.mp h
  rw [canonicalWord, if_pos hclass]
  exact u16_eq_packXNN _ _ _ (by simp [toNat_fieldNN])

theorem canonicalWord_of_header5_or_9 (h : fieldHeader w = 0x5 ∨ fieldHeader w = 0x9) :
    canonicalWord w = packXYN (fieldHeader w) (fieldX w) (fieldY w) 0x0 := by
  have hclass : w.toNat / 4096 = 0x5 ∨ w.toNat / 4096 = 0x9 := h.imp fieldHeader_eq_iff.mp fieldHeader_eq_iff.mp
  rw [canonicalWord, if_neg (by omega), if_pos hclass]
  exact u16_eq_packXYN _ _ _ _ (by simp [toNat_fieldHeader, val_fieldX, val_fieldY]; omega)

/-- The shifts keep x. -/
theorem canonicalWord_of_shift (h : fieldHeader w = 0x8) (hn : fieldN w = 0x6 ∨ fieldN w = 0xE) :
    canonicalWord w = packXYN 0x8 (fieldX w) 0 (fieldN w) := by
  have hclass : w.toNat / 4096 = 0x8 := fieldHeader_eq_iff.mp h
  have hcode : w.toNat % 16 = 0x6 ∨ w.toNat % 16 = 0xE := hn.imp fieldN_eq_iff.mp fieldN_eq_iff.mp
  rw [canonicalWord, if_neg (by omega), if_neg (by omega), if_pos ⟨hclass, hcode⟩]
  exact u16_eq_packXYN _ _ _ _ (by simp [val_fieldX, toNat_fieldN]; omega)

theorem canonicalWord_of_unknown8 (h : fieldHeader w = 0x8) (hn : fieldN w ∉ knownCodes8) :
    canonicalWord w = packXYN 0x8 0 0 (fieldN w) := by
  have hclass : w.toNat / 4096 = 0x8 := fieldHeader_eq_iff.mp h
  simp only [fieldN_mem_knownCodes8_iff, List.mem_cons, List.not_mem_nil, or_false] at hn
  rw [canonicalWord, if_neg (by omega), if_neg (by omega), if_neg (by omega), if_pos (by omega)]
  exact u16_eq_packXYN _ _ _ _ (by simp [toNat_fieldN])

theorem canonicalWord_of_unknownE (h : fieldHeader w = 0xE) (hnn : fieldNN w ∉ knownCodesE) :
    canonicalWord w = packXNN 0xE 0 (fieldNN w) := by
  have hclass : w.toNat / 4096 = 0xE := fieldHeader_eq_iff.mp h
  rw [fieldNN_mem_knownCodesE_iff] at hnn
  rw [canonicalWord, if_neg (by omega), if_neg (by omega), if_neg (by omega), if_neg (by omega),
    if_pos ⟨hclass, hnn⟩]
  exact u16_eq_packXNN _ _ _ (by simp [toNat_fieldNN])

theorem canonicalWord_of_unknownF (h : fieldHeader w = 0xF) (hnn : fieldNN w ∉ knownCodesF) :
    canonicalWord w = packXNN 0xF 0 (fieldNN w) := by
  have hclass : w.toNat / 4096 = 0xF := fieldHeader_eq_iff.mp h
  rw [fieldNN_mem_knownCodesF_iff] at hnn
  rw [canonicalWord, if_neg (by omega), if_neg (by omega), if_neg (by omega), if_neg (by omega), if_neg (by omega),
    if_pos ⟨hclass, hnn⟩]
  exact u16_eq_packXNN _ _ _ (by simp [toNat_fieldNN])

/-- Words of the classes that have neither an ignored field nor a secondary code. -/
theorem canonicalWord_of_full_header
    (h : fieldHeader w ∈ ([0x1, 0x2, 0x3, 0x4, 0x6, 0x7, 0xA, 0xB, 0xC, 0xD] : List (BitVec 4))) :
    canonicalWord w = w := by
  have hclass : w.toNat / 4096 ∈ [0x1, 0x2, 0x3, 0x4, 0x6, 0x7, 0xA, 0xB, 0xC, 0xD] := by
    simpa [fieldHeader_eq_iff] using h
  simp only [List.mem_cons, List.not_mem_nil, or_false] at hclass
  rw [canonicalWord, if_neg (by omega), if_neg (by omega), if_neg (by omega), if_neg (by omega), if_neg (by omega),
    if_neg (by omega)]

theorem canonicalWord_of_known8 (h : fieldHeader w = 0x8) (hn : fieldN w ∈ knownCodes8)
    (hshift : ¬ (fieldN w = 0x6 ∨ fieldN w = 0xE)) : canonicalWord w = w := by
  have hclass : w.toNat / 4096 = 0x8 := fieldHeader_eq_iff.mp h
  have hother : ¬ (w.toNat % 16 = 0x6 ∨ w.toNat % 16 = 0xE) :=
    fun hcode => hshift (hcode.imp fieldN_eq_iff.mpr fieldN_eq_iff.mpr)
  simp only [fieldN_mem_knownCodes8_iff, List.mem_cons, List.not_mem_nil, or_false] at hn
  rw [canonicalWord, if_neg (by omega), if_neg (by omega), if_neg (by omega), if_neg (by omega), if_neg (by omega),
    if_neg (by omega)]

theorem canonicalWord_of_knownE (h : fieldHeader w = 0xE) (hnn : fieldNN w ∈ knownCodesE) : canonicalWord w = w := by
  have hclass : w.toNat / 4096 = 0xE := fieldHeader_eq_iff.mp h
  rw [fieldNN_mem_knownCodesE_iff] at hnn
  rw [canonicalWord, if_neg (by omega), if_neg (by omega), if_neg (by omega), if_neg (by omega),
    if_neg fun hnop => hnop.2 hnn, if_neg (by omega)]

theorem canonicalWord_of_knownF (h : fieldHeader w = 0xF) (hnn : fieldNN w ∈ knownCodesF) : canonicalWord w = w := by
  have hclass : w.toNat / 4096 = 0xF := fieldHeader_eq_iff.mp h
  rw [fieldNN_mem_knownCodesF_iff] at hnn
  rw [canonicalWord, if_neg (by omega), if_neg (by omega), if_neg (by omega), if_neg (by omega), if_neg (by omega),
    if_neg fun hnop => hnop.2 hnn]

/-- The header stands in the canonical form too. -/
theorem fieldHeader_canonicalWord (w : Word) : fieldHeader (canonicalWord w) = fieldHeader w := by
  have := w.isLt
  rw [fieldHeader_eq_iff, toNat_fieldHeader, canonicalWord]
  split_ifs <;> simp only [BitVec.toNat_ofNat] <;> omega

/-- So does the secondary code n. -/
theorem fieldN_canonicalWord (h : fieldHeader w = 0x8) : fieldN (canonicalWord w) = fieldN w := by
  have hclass : w.toNat / 4096 = 0x8 := fieldHeader_eq_iff.mp h
  rw [fieldN_eq_iff, toNat_fieldN, canonicalWord]
  split_ifs <;> simp only [BitVec.toNat_ofNat] <;> omega

/-- So does the secondary code nn. -/
theorem fieldNN_canonicalWord (h : fieldHeader w = 0x0 ∨ fieldHeader w = 0xE ∨ fieldHeader w = 0xF) :
    fieldNN (canonicalWord w) = fieldNN w := by
  have hclass : w.toNat / 4096 = 0x0 ∨ w.toNat / 4096 = 0xE ∨ w.toNat / 4096 = 0xF :=
    h.imp fieldHeader_eq_iff.mp (.imp fieldHeader_eq_iff.mp fieldHeader_eq_iff.mp)
  rw [fieldNN_eq_iff, toNat_fieldNN, canonicalWord]
  split_ifs <;> simp only [BitVec.toNat_ofNat] <;> omega

/-! ### Encoding a decoded word -/

/-- `i` is a well-formed instruction with the word `u`. -/
def HasWord (i : Instr) (u : Word) : Prop := i.wellFormed = true ∧ encode i = u

theorem decode0_of_known (h : fieldNN w ∈ knownCodes0) : HasWord (decode0 w) (packXNN 0x0 0 (fieldNN w)) := by
  simp only [knownCodes0, List.mem_cons, List.not_mem_nil, or_false] at h
  rcases h with h | h <;> simp [HasWord, Instr.wellFormed, encode, decode0, h]

theorem decode8_of_shift (h : fieldN w = 0x6 ∨ fieldN w = 0xE) :
    HasWord (decode8 w) (packXYN 0x8 (fieldX w) 0 (fieldN w)) := by
  rcases h with h | h <;> simp [HasWord, Instr.wellFormed, encode, decode8, h]

theorem decode8_of_known (h : fieldN w ∈ knownCodes8) (hshift : ¬ (fieldN w = 0x6 ∨ fieldN w = 0xE)) :
    HasWord (decode8 w) (packXYN 0x8 (fieldX w) (fieldY w) (fieldN w)) := by
  simp only [knownCodes8, List.mem_cons, List.not_mem_nil, or_false] at h
  rcases h with h | h | h | h | h | h | h | h | h <;>
    simp [HasWord, Instr.wellFormed, encode, decode8, h] at hshift ⊢

theorem decodeE_of_known (h : fieldNN w ∈ knownCodesE) :
    HasWord (decodeE w) (packXNN 0xE (fieldX w) (fieldNN w)) := by
  simp only [knownCodesE, List.mem_cons, List.not_mem_nil, or_false] at h
  rcases h with h | h <;> simp [HasWord, Instr.wellFormed, encode, decodeE, h]

theorem decodeF_of_known (h : fieldNN w ∈ knownCodesF) :
    HasWord (decodeF w) (packXNN 0xF (fieldX w) (fieldNN w)) := by
  simp only [knownCodesF, List.mem_cons, List.not_mem_nil, or_false] at h
  rcases h with h | h | h | h | h | h | h | h | h <;> simp [HasWord, Instr.wellFormed, encode, decodeF, h]

theorem decode0_hasWord (h : fieldHeader w = 0x0) : HasWord (decode0 w) (canonicalWord w) := by
  rw [canonicalWord_of_header0 h]
  by_cases hnn : fieldNN w ∈ knownCodes0
  · exact decode0_of_known hnn
  · rw [decode0_of_unknown hnn]
    exact ⟨(wellFormed_nop0 _).mpr hnn, rfl⟩

theorem decode8_hasWord (h : fieldHeader w = 0x8) : HasWord (decode8 w) (canonicalWord w) := by
  by_cases hn : fieldN w ∈ knownCodes8
  · by_cases hshift : fieldN w = 0x6 ∨ fieldN w = 0xE
    · rw [canonicalWord_of_shift h hshift]
      exact decode8_of_shift hshift
    · rw [canonicalWord_of_known8 h hn hshift]
      simpa only [packXYN_fields h] using decode8_of_known hn hshift
  · rw [decode8_of_unknown hn, canonicalWord_of_unknown8 h hn]
    exact ⟨(wellFormed_nop8 _).mpr hn, rfl⟩

theorem decodeE_hasWord (h : fieldHeader w = 0xE) : HasWord (decodeE w) (canonicalWord w) := by
  by_cases hnn : fieldNN w ∈ knownCodesE
  · rw [canonicalWord_of_knownE h hnn]
    simpa only [packXNN_fields h] using decodeE_of_known hnn
  · rw [decodeE_of_unknown hnn, canonicalWord_of_unknownE h hnn]
    exact ⟨(wellFormed_nopE _).mpr hnn, rfl⟩

theorem decodeF_hasWord (h : fieldHeader w = 0xF) : HasWord (decodeF w) (canonicalWord w) := by
  by_cases hnn : fieldNN w ∈ knownCodesF
  · rw [canonicalWord_of_knownF h hnn]
    simpa only [packXNN_fields h] using decodeF_of_known hnn
  · rw [decodeF_of_unknown hnn, canonicalWord_of_unknownF h hnn]
    exact ⟨(wellFormed_nopF _).mpr hnn, rfl⟩

end

theorem decode_hasWord (w : Word) : HasWord (decode w) (canonicalWord w) := by
  fun_cases decode w with
  | case1 h => exact decode0_hasWord h
  | case2 | case3 | case11 | case12 =>
    rename_i h
    rw [canonicalWord_of_full_header (by simp [h])]
    exact ⟨rfl, packNNN_fields h⟩
  | case4 | case5 | case7 | case8 | case13 =>
    rename_i h
    rw [canonicalWord_of_full_header (by simp [h])]
    exact ⟨rfl, packXNN_fields h⟩
  | case14 =>
    rename_i h
    rw [canonicalWord_of_full_header (by simp [h])]
    exact ⟨rfl, packXYN_fields h⟩
  | case6 | case10 =>
    rename_i h
    rw [canonicalWord_of_header5_or_9 (by simp [h]), h]
    exact ⟨rfl, rfl⟩
  | case9 => exact decode8_hasWord ‹_›
  | case15 => exact decodeE_hasWord ‹_›
  | case16 => exact decodeF_hasWord (by bv_omega)

/-- Settles O2: class by class. -/
theorem encodeOfDecodeIsCanonical : Obligations.EncodeOfDecodeIsCanonical := decode_hasWord

/-! ### NOP -/

section
variable {w : Word}

/-- The NOPs of a class whose secondary code is nn, for its constructor, header and recognised codes. -/
theorem exists_nop_iff {mk : Byte → Instr} {header : BitVec 4} {known : List Byte}
    (hheader : header = 0x0 ∨ header = 0xE ∨ header = 0xF)
    (hencode : ∀ nn, encode (mk nn) = packXNN header 0 nn)
    (hwf : ∀ nn, (mk nn).wellFormed = true ↔ nn ∉ known)
    (hdecode : fieldHeader w = header → fieldNN w ∉ known → decode w = mk (fieldNN w)) :
    (∃ nn, decode w = mk nn) ↔ fieldHeader w = header ∧ fieldNN w ∉ known := by
  constructor
  · rintro ⟨nn, hnop⟩
    obtain ⟨hunknown, hword⟩ := hnop ▸ decode_hasWord w
    rw [hwf] at hunknown
    rw [hencode] at hword
    have hw : fieldHeader w = header := by rw [← fieldHeader_canonicalWord, ← hword, fieldHeader_packXNN]
    have hnn : fieldNN w = nn := by rw [← fieldNN_canonicalWord (hw ▸ hheader), ← hword, fieldNN_packXNN]
    exact ⟨hw, hnn ▸ hunknown⟩
  · rintro ⟨hw, hunknown⟩
    exact ⟨_, hdecode hw hunknown⟩

theorem exists_nop0_iff : (∃ nn, decode w = .nop0 nn) ↔ fieldHeader w = 0x0 ∧ fieldNN w ∉ knownCodes0 :=
  exists_nop_iff (by decide) (fun _ => rfl) wellFormed_nop0
    fun hw hunknown => (decode_of_header0 hw).trans (decode0_of_unknown hunknown)

theorem exists_nopE_iff : (∃ nn, decode w = .nopE nn) ↔ fieldHeader w = 0xE ∧ fieldNN w ∉ knownCodesE :=
  exists_nop_iff (by decide) (fun _ => rfl) wellFormed_nopE
    fun hw hunknown => (decode_of_headerE hw).trans (decodeE_of_unknown hunknown)

theorem exists_nopF_iff : (∃ nn, decode w = .nopF nn) ↔ fieldHeader w = 0xF ∧ fieldNN w ∉ knownCodesF :=
  exists_nop_iff (by decide) (fun _ => rfl) wellFormed_nopF
    fun hw hunknown => (decode_of_headerF hw).trans (decodeF_of_unknown hunknown)

theorem exists_nop8_iff : (∃ n, decode w = .nop8 n) ↔ fieldHeader w = 0x8 ∧ fieldN w ∉ knownCodes8 := by
  constructor
  · rintro ⟨n, hnop⟩
    obtain ⟨hunknown, hword⟩ := hnop ▸ decode_hasWord w
    rw [wellFormed_nop8] at hunknown
    have hw : fieldHeader w = 0x8 := by rw [← fieldHeader_canonicalWord, ← hword, encode, fieldHeader_packXYN]
    have hn : fieldN w = n := by rw [← fieldN_canonicalWord hw, ← hword, encode, fieldN_packXYN]
    exact ⟨hw, hn ▸ hunknown⟩
  · rintro ⟨hw, hunknown⟩
    exact ⟨_, (decode_of_header8 hw).trans (decode8_of_unknown hunknown)⟩

end

end Sys2Proof.Machine
end

section
/-! SUPPORT. The frame of each operation on the state, and from them the frame of every instruction (spec/30_encoding.md
R54, R55, spec/60_exceptions.md R105). -/

namespace Sys2Proof.Machine

/-! ### What each operation leaves unchanged -/

theorem State.unchangedExcept.refl (s : State) (may : List Part) : s.unchangedExcept s may := by
  constructor <;> intros <;> rfl

section
variable {s t : State} {may : List Part} (h : t.unchangedExcept s may)
include h

theorem State.unchangedExcept.withV {v : Vector Byte 16} (hv : Part.v ∈ may := by simp [mayWrite]) :
    { t with v := v }.unchangedExcept s may :=
  { h with v := (absurd hv ·) }

theorem State.unchangedExcept.setV {r : Reg} {b : Byte} (hv : Part.v ∈ may := by simp [mayWrite]) :
    (t.setV r b).unchangedExcept s may :=
  h.withV hv

theorem State.unchangedExcept.setResultAndFlag {x : Reg} {b : Byte} {f : Bool}
    (hv : Part.v ∈ may := by simp [mayWrite]) : (t.setResultAndFlag x b f).unchangedExcept s may :=
  (h.setV hv).setV hv

theorem State.unchangedExcept.loadBlock {x : Reg} {a : Nat} (hv : Part.v ∈ may := by simp [mayWrite]) :
    (t.loadBlock x a).unchangedExcept s may :=
  h.withV hv

theorem State.unchangedExcept.setI {a : Word} (hi : Part.i ∈ may := by simp [mayWrite]) :
    (t.setI a).unchangedExcept s may :=
  { h with i := (absurd hi ·) }

theorem State.unchangedExcept.setDT {b : Byte} (hdt : Part.dt ∈ may := by simp [mayWrite]) :
    (t.setDT b).unchangedExcept s may :=
  { h with dt := (absurd hdt ·) }

theorem State.unchangedExcept.setST {b : Byte} (hst : Part.st ∈ may := by simp [mayWrite]) :
    (t.setST b).unchangedExcept s may :=
  { h with st := (absurd hst ·) }

theorem State.unchangedExcept.setPC {a : Word} (hpc : Part.pc ∈ may := by simp [mayWrite]) :
    (t.setPC a).unchangedExcept s may :=
  { h with pc := (absurd hpc ·) }

theorem State.unchangedExcept.advance (hpc : Part.pc ∈ may := by simp [mayWrite]) : t.advance.unchangedExcept s may :=
  h.setPC hpc

theorem State.unchangedExcept.skipIf {c : Bool} (hpc : Part.pc ∈ may := by simp [mayWrite]) :
    (t.skipIf c).unchangedExcept s may := by
  rw [State.skipIf_eq]
  exact h.setPC hpc

theorem State.unchangedExcept.push {a : Word} (hsp : Part.sp ∈ may := by simp [mayWrite])
    (hstack : Part.stack ∈ may := by simp [mayWrite]) : (t.push a).unchangedExcept s may :=
  { h with sp := (absurd hsp ·), stack := (absurd hstack ·) }

theorem State.unchangedExcept.pop (hsp : Part.sp ∈ may := by simp [mayWrite]) : t.pop.unchangedExcept s may :=
  { h with sp := (absurd hsp ·) }

theorem State.unchangedExcept.storeBytes {a : Nat} {bytes : List Byte} (hmem : Part.mem ∈ may := by simp [mayWrite]) :
    (t.storeBytes a bytes).unchangedExcept s may :=
  { h with mem := (absurd hmem ·) }

theorem State.unchangedExcept.setFB {fb : Framebuffer} (hfb : Part.fb ∈ may := by simp [mayWrite]) :
    (t.setFB fb).unchangedExcept s may :=
  { h with fb := (absurd hfb ·) }

theorem State.unchangedExcept.requestPresent (hpresent : Part.presentRequests ∈ may := by simp [mayWrite]) :
    t.requestPresent.unchangedExcept s may :=
  { h with presentRequests := (absurd hpresent ·) }

theorem State.unchangedExcept.drawSprite {ox oy : Nat} {rows : List Byte} (hfb : Part.fb ∈ may := by simp [mayWrite])
    (hv : Part.v ∈ may := by simp [mayWrite]) (hpresent : Part.presentRequests ∈ may := by simp [mayWrite]) :
    (t.drawSprite ox oy rows).unchangedExcept s may :=
  ((h.setFB hfb).setV hv).requestPresent hpresent

theorem State.unchangedExcept.drawn (hdraws : Part.randDraws ∈ may := by simp [mayWrite]) :
    t.drawn.unchangedExcept s may :=
  { h with randDraws := (absurd hdraws ·) }

/-- The check-first shape writes the latch, or what its effect part writes. -/
theorem State.unchangedExcept.orRaise {check : Option FaultCause} (hfault : Part.fault ∈ may := by simp [mayWrite]) :
    (s.orRaise check t).unchangedExcept s may := by
  cases check with
  | none => exact h
  | some c => exact { State.unchangedExcept.refl s may with fault := (absurd hfault ·) }

end

/-! ### What each instruction leaves unchanged -/

/-- Settles O53: an instruction is a chain of operations, each of which writes listed parts only. -/
theorem eachInstructionWritesOnlyItsParts : Obligations.EachInstructionWritesOnlyItsParts := by
  intro i s t h
  have hs := State.unchangedExcept.refl s (mayWrite i)
  cases i with
  | cls => cases h; exact hs.setFB.advance
  | ret => cases h; exact hs.pop.setPC.orRaise
  | call _ => cases h; exact hs.push.setPC.orRaise
  | jp _ | jpV0 _ => cases h; exact hs.setPC
  | seImm _ _ | sneImm _ _ | seReg _ _ | sneReg _ _ => cases h; exact hs.skipIf
  | skp _ | sknp _ => cases h; exact hs.skipIf.orRaise
  | ldImm _ _ | addImm _ _ | ldReg _ _ | or _ _ | and _ _ | xor _ _ | ldVxDt _ => cases h; exact hs.setV.advance
  | addReg _ _ | sub _ _ | shr _ | subn _ _ | shl _ => cases h; exact hs.setResultAndFlag.advance
  | rnd _ _ => cases h; exact hs.setV.drawn.advance
  | ldI _ | addI _ | ldF _ => cases h; exact hs.setI.advance
  | ldDtVx _ => cases h; exact hs.setDT.advance
  | ldStVx _ => cases h; exact hs.setST.advance
  | drw _ _ _ => cases h; exact hs.drawSprite.advance.orRaise
  | ldB _ | storeRegs _ => cases h; exact hs.storeBytes.advance.orRaise
  | loadRegs _ => cases h; exact hs.loadBlock.advance.orRaise
  | ldVxK x =>
    obtain ⟨k, hk⟩ | hk := exec_ldVxK_cases x s <;> cases hk.symm.trans h
    · exact hs.setV.advance
    · exact hs
  | nop0 _ | nop8 _ | nopE _ | nopF _ => cases h; exact hs.advance

end Sys2Proof.Machine
end

section
/-! SUPPORT. Where PC goes (spec/30_encoding.md R55, R58, spec/40_flow.md R62). -/

namespace Sys2Proof.Machine

/-! ### The two ways PC moves relative to itself -/

theorem word_add_eq_u16 (a : Word) (n : Nat) : a + u16 n = u16 (a.toNat + n) :=
  BitVec.eq_of_toNat_eq (by simp)

theorem State.advance_pc_eq_u16 (s : State) : s.advance.pc = u16 (s.pc.toNat + 2) := word_add_eq_u16 s.pc 2

theorem State.skipIf_pc_eq_u16 (s : State) (c : Bool) : (s.skipIf c).pc = u16 (s.pc.toNat + if c then 4 else 2) := by
  cases c with
  | false => exact word_add_eq_u16 s.pc 2
  | true => exact word_add_eq_u16 s.pc 4

theorem State.skipIf_not_pc_eq_u16 (s : State) (c : Bool) :
    (s.skipIf !c).pc = u16 (s.pc.toNat + if c then 2 else 4) := by
  cases c with
  | false => exact word_add_eq_u16 s.pc 4
  | true => exact word_add_eq_u16 s.pc 2

/-! ### NOP -/

/-- The default advance and nothing else. -/
theorem State.advance_only (s : State) :
    s.advance.pc = u16 (s.pc.toNat + 2) ∧ s.advance.unchangedExcept s [.pc] :=
  ⟨s.advance_pc_eq_u16, (State.unchangedExcept.refl s _).advance⟩

/-- The codes of class 0x8 outside the list of R53 are those of R55. -/
theorem not_mem_knownCodes8_iff {n : Nat} (h : n < 16) :
    n ∉ [0x0, 0x1, 0x2, 0x3, 0x4, 0x5, 0x6, 0x7, 0xE] ↔ n ∈ [0x8, 0x9, 0xA, 0xB, 0xC, 0xD, 0xF] := by
  simp only [List.mem_cons, List.not_mem_nil, or_false]
  omega

/-- Settles O4: the NOP words of each class by `exists_nop0_iff` and its like, read as numbers; the effect is the
default advance by definition. -/
theorem nopWordsAndEffect : Obligations.NopWordsAndEffect := by
  refine ⟨fun w => ⟨?_, ?_, ?_, ?_⟩, fun s => ?_⟩
  · rw [exists_nop0_iff, fieldHeader_eq_iff, fieldNN_mem_knownCodes0_iff]
    rfl
  · rw [exists_nop8_iff, fieldHeader_eq_iff, fieldN_mem_knownCodes8_iff]
    exact and_congr_right fun _ => not_mem_knownCodes8_iff (Nat.mod_lt _ (by decide))
  · rw [exists_nopE_iff, fieldHeader_eq_iff, fieldNN_mem_knownCodesE_iff]
    rfl
  · rw [exists_nopF_iff, fieldHeader_eq_iff, fieldNN_mem_knownCodesF_iff]
    rfl
  · exact ⟨fun _ => ⟨_, rfl, s.advance_only⟩, fun _ => ⟨_, rfl, s.advance_only⟩, fun _ => ⟨_, rfl, s.advance_only⟩,
      fun _ => ⟨_, rfl, s.advance_only⟩⟩

/-! ### Every instruction -/

/-- The check-first shape without a fault did its effect part. -/
theorem State.orRaise_eq_of_no_fault {s s' : State} {check : Option FaultCause}
    (h : (s.orRaise check s').fault = none) : s.orRaise check s' = s' := by
  cases check with
  | none => rfl
  | some c => cases h

/-- The key-wait advances if a key is pressed, else stays (R102). -/
theorem exec_ldVxK_pc {x : Reg} {s t : State} (h : exec (.ldVxK x) s = .next t) :
    t.pc = if s.keys = 0 then s.pc else u16 (s.pc.toNat + 2) := by
  simp only [exec, execLdVxK] at h
  obtain ⟨hlow, hkeys⟩ | ⟨k, -, hlow, hpressed, -⟩ := lowestKey_spec s.keys
  · rw [hlow] at h
    cases h
    rw [if_pos hkeys]
  · rw [hlow] at h
    cases h
    have hkeys : s.keys ≠ 0 := fun h0 => by simp [h0] at hpressed
    rw [if_neg hkeys]
    exact s.advance_pc_eq_u16

/-- Settles O11: a fault leaves PC where it was, because it writes the latch alone; else PC is as the last operation of
the instruction sets it. -/
theorem pcAfterEachInstruction : Obligations.PcAfterEachInstruction := by
  intro i s t hnone h
  refine ⟨fun hfault => ?_, fun hdone => ?_⟩
  · obtain ⟨c, rfl⟩ := faultsArePrecise i s t hnone h hfault
    rfl
  cases i with
  | ret => cases h; exact congrArg State.pc (State.orRaise_eq_of_no_fault hdone)
  | call nnn =>
    cases h
    rw [State.orRaise_eq_of_no_fault hdone]
    exact toNat_zextAddr nnn
  | jp nnn => cases h; exact toNat_zextAddr nnn
  | jpV0 nnn => cases h; exact toNat_offsetTarget nnn _
  | seImm _ _ | seReg _ _ =>
    cases h
    exact (s.skipIf_pc_eq_u16 _).trans (by simp only [beq_iff_eq])
  | sneImm _ _ | sneReg _ _ =>
    cases h
    exact (s.skipIf_not_pc_eq_u16 (_ == _)).trans (by simp only [beq_iff_eq])
  | skp _ =>
    cases h
    rw [State.orRaise_eq_of_no_fault hdone]
    exact s.skipIf_pc_eq_u16 _
  | sknp _ =>
    cases h
    rw [State.orRaise_eq_of_no_fault hdone]
    exact s.skipIf_not_pc_eq_u16 _
  | ldVxK _ => exact exec_ldVxK_pc h
  | drw _ _ _ | ldB _ | storeRegs _ | loadRegs _ =>
    cases h
    exact (congrArg State.pc (State.orRaise_eq_of_no_fault hdone)).trans (State.advance_pc_eq_u16 _)
  | cls | ldImm _ _ | addImm _ _ | ldReg _ _ | or _ _ | and _ _ | xor _ _ | addReg _ _ | sub _ _ | shr _ | subn _ _
  | shl _ | rnd _ _ | ldI _ | addI _ | ldF _ | ldVxDt _ | ldDtVx _ | ldStVx _ | nop0 _ | nop8 _ | nopE _ | nopF _ =>
    cases h
    exact State.advance_pc_eq_u16 _

end Sys2Proof.Machine
end

section
/-! SUPPORT. The step fetches the big-endian word at PC, or faults, and runs what it decodes to (spec/30_encoding.md
R52, R53, R59). -/

namespace Sys2Proof.Machine

theorem letRun_of_no_fault {s : State} (h : s.fault = none) : letRun s = instrStep s := by
  simp [letRun, h]

/-- An instruction step runs the word of the two bytes at PC. -/
theorem instrStep_of_bytes {s : State} (hfault : s.fault = none) (hpc : s.pc.toNat + 1 < 4096) :
    instrStep s =
      exec (decode (u16 (256 * (s.mem.read s.pc.toNat).toNat + (s.mem.read (s.pc.toNat + 1)).toNat))) s := by
  rw [instrStep_of_fits hfault hpc, State.fetchWord, wordOfBytes_eq_u16]

/-- The fetch check latches the lowest address outside memory. -/
theorem State.fetchFault_of_exceeds {s : State} (h : 4096 ≤ s.pc.toNat + 1) :
    s.fetchFault = some (.invalidMemoryAccess
      (BitVec.ofNat 17 (if 4096 ≤ s.pc.toNat then s.pc.toNat else s.pc.toNat + 1)) .fetch) := by
  have hlowest : max s.pc.toNat 4096 = if 4096 ≤ s.pc.toNat then s.pc.toNat else s.pc.toNat + 1 := by
    split <;> omega
  rw [State.fetchFault, rangeFault_of_exceeds Nat.two_pos (Nat.lt_succ_of_le h), hlowest]

/-- Settles O6: neither no move nor the move `run` adds anything to the instruction step. -/
theorem stepRunsDecodedInstruction : Obligations.StepRunsDecodedInstruction := by
  rintro s hi lo i hfault hpc rfl rfl rfl
  refine ⟨fun hmoves => ?_, fun rest hmoves => ?_⟩
  · rw [step_of_no_moves hmoves, instrStep_of_bytes hfault hpc]
  · rw [step_of_move hmoves, hostMove, letRun_of_no_fault (by exact hfault)]
    exact instrStep_of_bytes (s := { s with hostMoves := rest }) hfault hpc

/-- Settles O7: the two ends of the fetch check. -/
theorem fetchReadsWordOrFaults : Obligations.FetchReadsWordOrFaults := by
  refine fun s hfault => ⟨fun hexceeds => ?_, instrStep_of_bytes hfault⟩
  simp only [instrStep, hfault, State.fetchFault_of_exceeds hexceeds]
  rfl

/-- Settles O10: the step after the placing fetches the placed word, which was written to memory alone. -/
theorem placedWordRunsNext : Obligations.PlacedWordRunsNext := by
  intro s w hm hpc
  refine ⟨?_, { State.unchangedExcept.refl s _ with mem := by simp, fault := by simp, hostMoves := by simp }⟩
  have hstep := step_of_fits (s := s.withFetchWord 16 w.toNat) rfl rfl hpc
  rwa [s.fetchWord_withFetchWord hm hpc w] at hstep

end Sys2Proof.Machine
end

section
/-! SUPPORT. The control-flow instructions (spec/40_flow.md R62-R70): their words, what each does to PC and the stack,
and the two laws that follow, that a return undoes a call and that a self-jump is a fixed point of the step (R133). -/

namespace Sys2Proof

/-! ### The words of an instruction -/

theorem u16_eq_packNNN {k : Nat} (h : BitVec 4) (nnn : Addr12) (hk : k = 4096 * h.toNat + nnn.toNat) :
    u16 k = packNNN h nnn := by
  apply BitVec.eq_of_toNat_eq
  rw [toNat_packNNN, BitVec.toNat_ofNat]
  omega

theorem decode_of_eq_encode {w : Word} {i : Instr} (hwf : i.wellFormed = true) (hw : w = encode i) : decode w = i :=
  hw ▸ decodeInvertsEncode i hwf

end Sys2Proof

namespace Sys2Proof.Machine

/-! ### Jumps -/

/-- Settles O19: the jump is one explicit set of PC. -/
theorem jpSetsPc : Obligations.JpSetsPc :=
  ⟨fun nnn => decode_of_eq_encode rfl (u16_eq_packNNN 0x1 nnn rfl),
    fun nnn s => ⟨_, rfl, toNat_zextAddr nnn, (State.unchangedExcept.refl s _).setPC⟩⟩

/-- Settles O23: the target is a sum of 16-bit values that does not wrap. -/
theorem jpV0AddsV0 : Obligations.JpV0AddsV0 :=
  ⟨fun nnn => decode_of_eq_encode rfl (u16_eq_packNNN 0xB nnn rfl),
    fun nnn s => ⟨_, rfl, toNat_offsetTarget nnn (s.getV 0), (State.unchangedExcept.refl s _).setPC⟩⟩

/-- Settles O25: the step runs the jump, which sets PC to what it was. -/
theorem selfJumpChangesNothing : Obligations.SelfJumpChangesNothing := by
  intro nnn s hfault hmoves hself hpc hdecode
  have hstep : step s = exec (.jp nnn) s := (stepRunsDecodedInstruction s _ _ _ hfault hpc rfl rfl hdecode).1 hmoves
  have htarget : zextAddr nnn = s.pc := BitVec.eq_of_toNat_eq ((toNat_zextAddr nnn).trans hself.symm)
  rw [hstep, exec, execJp, htarget]
  rfl

/-! ### Skips -/

/-- A skip on a condition moves PC by two words or one, and nothing else. -/
theorem State.skipIf_only (s : State) {c : Bool} {p : Prop} [Decidable p] (hc : c = true ↔ p) :
    (s.skipIf c).pc = (if p then u16 (s.pc.toNat + 4) else u16 (s.pc.toNat + 2)) ∧
      (s.skipIf c).unchangedExcept s [.pc] := by
  refine ⟨?_, (State.unchangedExcept.refl s _).skipIf⟩
  simp only [State.skipIf_pc_eq_u16, hc]
  split <;> rfl

/-- Settles O21: both instructions end in a skip on the comparison with the constant. -/
theorem skipsOnImmediate : Obligations.SkipsOnImmediate :=
  ⟨fun x nn => ⟨decode_of_eq_encode rfl (u16_eq_packXNN 0x3 x nn rfl),
      decode_of_eq_encode rfl (u16_eq_packXNN 0x4 x nn rfl)⟩,
    fun _ _ s => ⟨⟨_, rfl, s.skipIf_only beq_iff_eq⟩, ⟨_, rfl, s.skipIf_only bne_iff_ne⟩⟩⟩

/-- Settles O22: both instructions end in a skip on the comparison of the registers; their words are those of R57 with
the low nibble ignored. -/
theorem skipsOnRegisters : Obligations.SkipsOnRegisters := by
  obtain ⟨-, hwords, -⟩ := ignoredFieldsDoNotMatter
  exact ⟨hwords, fun _ _ s => ⟨⟨_, rfl, s.skipIf_only beq_iff_eq⟩, ⟨_, rfl, s.skipIf_only bne_iff_ne⟩⟩⟩

/-! ### Return -/

theorem exec_ret_of_nonempty {s : State} (h : s.sp.val ≠ 0) : exec .ret s = .next (s.pop.setPC s.top) := by
  rw [exec, execRet, State.underflowFault_eq, if_neg h, State.orRaise_none]

theorem exec_ret_of_empty {s : State} (h : s.sp.val = 0) : exec .ret s = .next (s.raise .stackUnderflow) := by
  rw [exec, execRet, State.underflowFault_eq, if_pos h, State.orRaise_some]

/-- Settles O18: the two sides of the underflow check. -/
theorem retPopsTheReturnAddress : Obligations.RetPopsTheReturnAddress := by
  obtain ⟨hwords, -⟩ := ignoredFieldsDoNotMatter
  refine ⟨fun x => (hwords x).2, fun s => ⟨fun hsp => ?_, exec_ret_of_empty⟩⟩
  exact ⟨_, exec_ret_of_nonempty hsp, rfl, sp_sub_one s.sp hsp, (State.unchangedExcept.refl s _).pop.setPC⟩

/-! ### Call -/

theorem exec_call_of_room {s : State} (h : s.sp.val ≠ 15) (nnn : Addr12) :
    exec (.call nnn) s = .next ((s.push (s.pc + 2)).setPC (zextAddr nnn)) := by
  rw [exec, execCall, State.overflowFault_eq, if_neg h, State.orRaise_none]

theorem exec_call_of_full {s : State} (h : s.sp.val = 15) (nnn : Addr12) :
    exec (.call nnn) s = .next (s.raise (.stackOverflow s.sp)) := by
  rw [exec, execCall, State.overflowFault_eq, if_pos h, State.orRaise_some]

/-- Below the top of the stack a push writes the entry of SP + 1 and no other. -/
theorem State.getElem_push_stack {s : State} (h : s.sp.val ≠ 15) (a : Word) (k : Fin Config.stackDepth) :
    (s.push a).stack[k.val] = if k.val = s.sp.val + 1 then a else s.stack[k.val] := by
  simp only [State.push_stack, Vector.getElem_set, sp_add_one s.sp h, eq_comm]

/-- Settles O20: the two sides of the overflow check. -/
theorem callPushesTheReturnAddress : Obligations.CallPushesTheReturnAddress := by
  refine ⟨fun nnn => decode_of_eq_encode rfl (u16_eq_packNNN 0x2 nnn rfl),
    fun nnn s => ⟨fun hsp => ?_, fun hsp => exec_call_of_full hsp nnn⟩⟩
  refine ⟨_, exec_call_of_room hsp nnn, sp_add_one s.sp hsp, fun k => ?_, toNat_zextAddr nnn,
    (State.unchangedExcept.refl s _).push.setPC⟩
  rw [← s.advance_pc_eq_u16]
  exact State.getElem_push_stack hsp _ k

/-! ### Call and return -/

@[simp] theorem State.top_push (s : State) (a : Word) : (s.push a).top = a :=
  Vector.getElem_set_self _

/-- The top entry is read from SP and the stack alone. -/
theorem State.top_congr {s t : State} (hsp : s.sp = t.sp) (hstack : s.stack = t.stack) : s.top = t.top := by
  simp only [State.top, hsp, hstack]

/-- Settles O24: the return finds on top the entry the call pushed, and pops it. -/
theorem returnUndoesCall : Obligations.ReturnUndoesCall := by
  intro nnn s hroom
  refine ⟨_, exec_call_of_room hroom nnn, fun u husp hustack => ?_⟩
  have hnonempty : u.sp.val ≠ 0 := by
    rw [husp]
    exact (sp_add_one s.sp hroom).trans_ne (Nat.succ_ne_zero _)
  have htop : u.top = u16 (s.pc.toNat + 2) := by
    rw [State.top_congr (t := s.push (s.pc + 2)) husp hustack, State.top_push]
    exact s.advance_pc_eq_u16
  have hsp : u.sp - 1 = s.sp := husp ▸ add_sub_cancel_right s.sp 1
  exact ⟨_, exec_ret_of_nonempty hnonempty, htop, hsp⟩

end Sys2Proof.Machine
end

section
/-! SUPPORT. The register loads, arithmetic and logic (spec/41_alu.md R71-R84): their words, and the two endings their
meanings have, a result in Vx with or without a flag in VF after it. -/

namespace Sys2Proof

/-- The words of class 0x8, by the formula of the opcode table. -/
theorem u16_eq_packXYN_class8 (x y : Reg) (n : Nibble) :
    u16 (0x8000 + n.toNat + 256 * x.val + 16 * y.val) = packXYN 0x8 x y n :=
  u16_eq_packXYN 0x8 x y n (by simp; omega)

end Sys2Proof

namespace Sys2Proof.Machine

/-! ### A result in Vx and no flag -/

/-- Writing Vx and advancing writes no other register and no other part. -/
theorem State.setV_advance_only (s : State) (x : Reg) (b : Byte) :
    (∀ r, (s.setV x b).advance.getV r = if r = x then b else s.getV r) ∧
      (s.setV x b).advance.pc = u16 (s.pc.toNat + 2) ∧ (s.setV x b).advance.unchangedExcept s [.v, .pc] := by
  refine ⟨fun r => ?_, (s.setV x b).advance_pc_eq_u16, (State.unchangedExcept.refl s _).setV.advance⟩
  simp only [State.advance_getV, State.getV_setV, eq_comm]

/-- Settles O26: the result is the constant. -/
theorem ldImmLoadsTheConstant : Obligations.LdImmLoadsTheConstant :=
  ⟨fun x nn => decode_of_eq_encode rfl (u16_eq_packXNN 0x6 x nn rfl),
    fun x nn s => ⟨_, rfl, s.setV_advance_only x nn⟩⟩

/-- Settles O27: the result is the 8-bit sum, and no flag is written after it. -/
theorem addImmWrapsWithNoFlag : Obligations.AddImmWrapsWithNoFlag := by
  refine ⟨fun x nn => decode_of_eq_encode rfl (u16_eq_packXNN 0x7 x nn rfl), fun x nn s => ?_⟩
  obtain ⟨hregs, hrest⟩ := s.setV_advance_only x (add8 (s.getV x) nn)
  refine ⟨_, rfl, fun r => ?_, hrest⟩
  rw [hregs, apply_ite BitVec.toNat, toNat_add8]

/-- Settles O28: the result is Vy. -/
theorem ldRegCopies : Obligations.LdRegCopies :=
  ⟨fun x y => decode_of_eq_encode rfl (u16_eq_packXYN_class8 x y 0x0),
    fun x _ s => ⟨_, rfl, s.setV_advance_only x _⟩⟩

/-- Settles O29: the three meanings differ in the result only. -/
theorem logicWritesOnlyTheDestination : Obligations.LogicWritesOnlyTheDestination :=
  ⟨fun x y => ⟨decode_of_eq_encode rfl (u16_eq_packXYN_class8 x y 0x1),
      decode_of_eq_encode rfl (u16_eq_packXYN_class8 x y 0x2), decode_of_eq_encode rfl (u16_eq_packXYN_class8 x y 0x3)⟩,
    fun x _ s => ⟨⟨_, rfl, s.setV_advance_only x _⟩, ⟨_, rfl, s.setV_advance_only x _⟩,
      ⟨_, rfl, s.setV_advance_only x _⟩⟩⟩

/-- Settles O35: the result is the masked byte of the draw, and counting the draw touches no register. -/
theorem rndMasksOneDraw : Obligations.RndMasksOneDraw := by
  refine ⟨fun x nn => decode_of_eq_encode rfl (u16_eq_packXNN 0xC x nn rfl), fun x nn s => ?_⟩
  obtain ⟨hregs, hpc, -⟩ := s.setV_advance_only x (s.rand &&& nn)
  exact ⟨_, rfl, hregs, rfl, hpc, (State.unchangedExcept.refl s _).setV.drawn.advance⟩

/-! ### The flags as numbers (R72) -/

theorem toNat_flagByte_carryFlag (a b : Byte) :
    (flagByte (carryFlag a b)).toNat = if a.toNat + b.toNat > 255 then 1 else 0 := by
  simp only [toNat_flagByte, carryFlag, decide_eq_true_eq]

theorem toNat_flagByte_greaterFlag (a b : Byte) :
    (flagByte (greaterFlag a b)).toNat = if a.toNat > b.toNat then 1 else 0 := by
  simp only [toNat_flagByte, greaterFlag, decide_eq_true_eq]

theorem toNat_flagByte_lsbFlag (a : Byte) : (flagByte (lsbFlag a)).toNat = a.toNat % 2 := by
  simp only [toNat_flagByte, lsbFlag_eq, decide_eq_true_eq]
  split <;> omega

theorem toNat_flagByte_msbFlag (a : Byte) : (flagByte (msbFlag a)).toNat = a.toNat / 128 := by
  simp only [toNat_flagByte, msbFlag_eq, decide_eq_true_eq]
  split <;> omega

/-! ### A result in Vx, then a flag in VF (R72) -/

/-- Writing Vx, then the flag, and advancing: VF holds the flag even when it is the destination, and no other register
and no other part is written. -/
theorem State.setResultAndFlag_advance_only (s : State) (x : Reg) {b : Byte} {f : Bool} {result flag : Nat}
    (hresult : b.toNat = result) (hflag : (flagByte f).toNat = flag) :
    (∀ r, ((s.setResultAndFlag x b f).advance.getV r).toNat =
        if r = 15 then flag else if r = x then result else (s.getV r).toNat) ∧
      (s.setResultAndFlag x b f).advance.pc = u16 (s.pc.toNat + 2) ∧
      (s.setResultAndFlag x b f).advance.unchangedExcept s [.v, .pc] := by
  refine ⟨fun r => ?_, State.advance_pc_eq_u16 _, (State.unchangedExcept.refl s _).setResultAndFlag.advance⟩
  rw [State.advance_getV, State.getV_setResultAndFlag, apply_ite BitVec.toNat, apply_ite BitVec.toNat, hresult, hflag]
  simp only [eq_comm]

/-- Settles O30: the result is the 8-bit sum, the flag the carry. -/
theorem addRegSetsSumThenCarry : Obligations.AddRegSetsSumThenCarry :=
  ⟨fun x y => decode_of_eq_encode rfl (u16_eq_packXYN_class8 x y 0x4),
    fun x _ s => ⟨_, rfl, s.setResultAndFlag_advance_only x (toNat_add8 _ _) (toNat_flagByte_carryFlag _ _)⟩⟩

/-- Settles O31: the result is the 8-bit difference, the flag the strict comparison. -/
theorem subSetsDifferenceThenFlag : Obligations.SubSetsDifferenceThenFlag :=
  ⟨fun x y => decode_of_eq_encode rfl (u16_eq_packXYN_class8 x y 0x5),
    fun x _ s => ⟨_, rfl, s.setResultAndFlag_advance_only x (toNat_sub8 _ _) (toNat_flagByte_greaterFlag _ _)⟩⟩

/-- Settles O33: SUB with the operands exchanged. -/
theorem subnSetsReversedDifferenceThenFlag : Obligations.SubnSetsReversedDifferenceThenFlag :=
  ⟨fun x y => decode_of_eq_encode rfl (u16_eq_packXYN_class8 x y 0x7),
    fun x _ s => ⟨_, rfl, s.setResultAndFlag_advance_only x (toNat_sub8 _ _) (toNat_flagByte_greaterFlag _ _)⟩⟩

/-- Settles O32: the flag is bit 0 of the value before the shift; the words are those of R57 with y ignored. -/
theorem shrHalvesThenFlag : Obligations.ShrHalvesThenFlag := by
  obtain ⟨-, -, hwords, -⟩ := ignoredFieldsDoNotMatter
  exact ⟨fun x y => (hwords x y).1,
    fun x s => ⟨_, rfl, s.setResultAndFlag_advance_only x (toNat_shr8 _) (toNat_flagByte_lsbFlag _)⟩⟩

/-- Settles O34: the flag is bit 7 of the value before the shift; the words are those of R57 with y ignored. -/
theorem shlDoublesThenFlag : Obligations.ShlDoublesThenFlag := by
  obtain ⟨-, -, hwords, -⟩ := ignoredFieldsDoNotMatter
  refine ⟨fun x y => (hwords x y).2, fun x s => ⟨_, rfl, ?_⟩⟩
  exact s.setResultAndFlag_advance_only x ((toNat_shl8 _).trans (by rw [Nat.mul_comm])) (toNat_flagByte_msbFlag _)

end Sys2Proof.Machine
end

section
/-! SUPPORT. The index register and the instructions that reach memory through it (spec/42_index_memory.md R85-R90):
their words, the two sides of the range check, and what a block store leaves in memory. -/

namespace Sys2Proof

/-- The words of class 0xF, by the formula of the opcode table. -/
theorem u16_eq_packXNN_classF (x : Reg) (nn : Byte) : u16 (0xF000 + nn.toNat + 256 * x.val) = packXNN 0xF x nn :=
  u16_eq_packXNN 0xF x nn (by simp; omega)

end Sys2Proof

namespace Sys2Proof.Machine

/-! ### A result in I -/

/-- Writing I and advancing writes no other part. -/
theorem State.setI_advance_only (s : State) (a : Word) :
    (s.setI a).advance.pc = u16 (s.pc.toNat + 2) ∧ (s.setI a).advance.unchangedExcept s [.i, .pc] :=
  ⟨(s.setI a).advance_pc_eq_u16, (State.unchangedExcept.refl s _).setI.advance⟩

/-- Settles O36: the address is the constant, extended with zeros. -/
theorem ldILoadsTheAddress : Obligations.LdILoadsTheAddress :=
  ⟨fun nnn => decode_of_eq_encode rfl (u16_eq_packNNN 0xA nnn rfl),
    fun nnn s => ⟨_, rfl, toNat_zextAddr nnn, s.setI_advance_only _⟩⟩

/-- Settles O37: the sum wraps at 16 bits, and no register is written. -/
theorem addIWrapsWithNoFlag : Obligations.AddIWrapsWithNoFlag :=
  ⟨fun x => decode_of_eq_encode rfl (u16_eq_packXNN_classF x 0x1E),
    fun _ s => ⟨_, rfl, toNat_indexSum s.i _, s.setI_advance_only _⟩⟩

/-- Settles O38: the address of the glyph is a sum of 16-bit values that does not wrap for any byte. -/
theorem ldFPointsAtTheGlyph : Obligations.LdFPointsAtTheGlyph :=
  ⟨fun x => decode_of_eq_encode rfl (u16_eq_packXNN_classF x 0x29),
    fun _ s => ⟨_, rfl, toNat_glyphAddr _, s.setI_advance_only _⟩⟩

/-! ### The range check of `n + 1` bytes, of which the last is at `base + n` -/

theorem State.orRaise_rangeFault_of_fits {s s' : State} {base n : Nat} {kind : AccessKind} (h : base + n < 4096) :
    s.orRaise (rangeFault base (n + 1) kind) s' = s' := by
  rw [rangeFault_of_fits (Nat.succ_le_of_lt h), State.orRaise_none]

theorem State.orRaise_rangeFault_of_exceeds {s s' : State} {base n : Nat} {kind : AccessKind} (h : 4096 ≤ base + n) :
    s.orRaise (rangeFault base (n + 1) kind) s' =
      s.raise (.invalidMemoryAccess (BitVec.ofNat 17 (max base 4096)) kind) := by
  rw [rangeFault_of_exceeds n.succ_pos (Nat.lt_succ_of_le h), State.orRaise_some]

/-! ### Stores from I -/

/-- Storing bytes and advancing writes no part but memory and PC. -/
theorem State.storeBytes_advance_only (s : State) (a : Nat) (bytes : List Byte) :
    (s.storeBytes a bytes).advance.pc = u16 (s.pc.toNat + 2) ∧
      (s.storeBytes a bytes).advance.unchangedExcept s [.mem, .pc] :=
  ⟨State.advance_pc_eq_u16 _, (State.unchangedExcept.refl s _).storeBytes.advance⟩

/-- A block store leaves every address below the block and every address past it as it was. -/
theorem Memory.read_writeBytes_outside {m : Memory} (hm : m.sorted) {bytes : List Byte} {a q : Nat}
    (h : q < a ∨ a + bytes.length ≤ q) : (m.writeBytes a bytes).read q = m.read q := by
  rw [Memory.read_writeBytes hm]
  obtain hbelow | hpast := h
  · rw [if_neg (Nat.not_le_of_lt hbelow)]
  · rw [if_pos (by omega), List.getD_eq_default _ _ (by omega)]

/-- What the store of the digits leaves at each address; a digit fits the byte it is stored in. -/
theorem Memory.toNat_read_writeBytes_decimalDigits {m : Memory} (hm : m.sorted) (a : Nat) (v : Byte) (q : Nat) :
    ((m.writeBytes a (decimalDigits v)).read q).toNat =
      if q = a then v.toNat / 100
      else if q = a + 1 then v.toNat / 10 % 10
      else if q = a + 2 then v.toNat % 10
      else (m.read q).toNat := by
  have hfits : v.toNat / 100 < 256 ∧ v.toNat / 10 % 10 < 256 ∧ v.toNat % 10 < 256 := by omega
  obtain ⟨hhundreds, htens, hones⟩ := hfits
  obtain rfl | rfl | rfl | houtside : q = a ∨ q = a + 1 ∨ q = a + 2 ∨ (q < a ∨ a + 3 ≤ q) := by omega
  · simp [Memory.read_writeBytes hm, decimalDigits, Nat.mod_eq_of_lt hhundreds]
  · simp [Memory.read_writeBytes hm, decimalDigits, Nat.mod_eq_of_lt htens]
  · simp [Memory.read_writeBytes hm, decimalDigits, Nat.mod_eq_of_lt hones]
  · rw [Memory.read_writeBytes_outside hm houtside, if_neg (by omega), if_neg (by omega), if_neg (by omega)]

/-- Settles O39: the two sides of the range check of the three bytes. -/
theorem ldBStoresTheDigits : Obligations.LdBStoresTheDigits := by
  refine ⟨fun x => decode_of_eq_encode rfl (u16_eq_packXNN_classF x 0x33),
    fun x s hm => ⟨fun hfits => ?_, fun hexceeds => ?_⟩⟩
  · exact ⟨_, congrArg Host.Outcome.next (State.orRaise_rangeFault_of_fits hfits),
      Memory.toNat_read_writeBytes_decimalDigits hm.1 _ _, s.storeBytes_advance_only _ _⟩
  · exact congrArg Host.Outcome.next (State.orRaise_rangeFault_of_exceeds hexceeds)

/-- Settles O40: the two sides of the range check of the x + 1 bytes. -/
theorem storeRegsStoresTheBlock : Obligations.StoreRegsStoresTheBlock := by
  refine ⟨fun x => decode_of_eq_encode rfl (u16_eq_packXNN_classF x 0x55),
    fun x s hm => ⟨fun hfits => ?_, fun hexceeds => ?_⟩⟩
  · refine ⟨_, exec_storeRegs_of_fits hfits, fun k hk => Memory.read_writeBytes_regBlock hm.1 s _ hk, fun a ha => ?_,
      s.storeBytes_advance_only _ _⟩
    refine Memory.read_writeBytes_outside hm.1 (ha.imp_right fun hpast => ?_)
    rw [s.length_regBlock]
    exact hpast
  · exact congrArg Host.Outcome.next (State.orRaise_rangeFault_of_exceeds hexceeds)

/-! ### Loads from I -/

theorem exec_loadRegs_of_fits {x : Reg} {s : State} (hfits : s.i.toNat + x.val < 4096) :
    exec (.loadRegs x) s = .next (s.loadBlock x s.i.toNat).advance :=
  congrArg Host.Outcome.next (State.orRaise_rangeFault_of_fits hfits)

/-- Settles O41: the two sides of the range check of the x + 1 bytes. -/
theorem loadRegsLoadsTheBlock : Obligations.LoadRegsLoadsTheBlock := by
  refine ⟨fun x => decode_of_eq_encode rfl (u16_eq_packXNN_classF x 0x65),
    fun x s => ⟨fun hfits => ?_, fun hexceeds => ?_⟩⟩
  · exact ⟨_, exec_loadRegs_of_fits hfits, fun k => s.getV_loadBlock x k _, State.advance_pc_eq_u16 _,
      (State.unchangedExcept.refl s _).loadBlock.advance⟩
  · exact congrArg Host.Outcome.next (State.orRaise_rangeFault_of_exceeds hexceeds)

/-- Settles O42: what the load reads at I + k is what the store left there, Vk. -/
theorem loadUndoesStore : Obligations.LoadUndoesStore := by
  obtain ⟨-, hstore⟩ := storeRegsStoresTheBlock
  obtain ⟨-, hload⟩ := loadRegsLoadsTheBlock
  intro x s hm hfits
  obtain ⟨t, hexec, hblock, -⟩ := (hstore x s hm).1 hfits
  refine ⟨t, hexec, fun u hmem hi => ?_⟩
  obtain ⟨w, hexec', hregs, -⟩ := (hload x u).1 (hi.symm ▸ hfits)
  refine ⟨w, hexec', fun k => ?_⟩
  rw [hregs, hmem, hi]
  split_ifs with hk
  · exact hblock k hk
  · rfl

end Sys2Proof.Machine
end

section
/-! SUPPORT. The framebuffer clear and the sprite draw (spec/43_sprite.md R91-R95): their words, the two sides of the
range check, and the law that a second draw undoes the first. What the sprite loops do to the pixels is said once, by
`toggles_drawSprite`. -/

namespace Sys2Proof.Machine

/-! ### The clear -/

/-- Settles O44: the instruction sets the framebuffer as a whole and advances; it has no operation on VF or the present
requests. -/
theorem clsClearsEveryPixel : Obligations.ClsClearsEveryPixel := by
  obtain ⟨hwords, -⟩ := ignoredFieldsDoNotMatter
  exact ⟨fun x => (hwords x).1, fun s => ⟨_, rfl, Framebuffer.get_clear, State.advance_pc_eq_u16 _,
    (State.unchangedExcept.refl s _).setFB.advance⟩⟩

/-! ### The two sides of the range check -/

section
variable {x y : Reg} {n : Nibble} {s : State}

theorem exec_drw_of_fits (hfits : n.toNat = 0 ∨ s.i.toNat + n.toNat - 1 < 4096) :
    exec (.drw x y n) s = .next (s.drawSprite (s.getV x).toNat (s.getV y).toNat
      (s.mem.readBytes s.i.toNat n.toNat)).advance := by
  have hcheck : rangeFault s.i.toNat n.toNat .read = none :=
    (rangeFault_eq_none _ _ _).mpr (hfits.imp_right Nat.le_of_pred_lt)
  rw [exec, execDrw, hcheck, State.orRaise_none]

theorem exec_drw_of_exceeds (hrows : n.toNat ≠ 0) (hexceeds : 4096 ≤ s.i.toNat + n.toNat - 1) :
    exec (.drw x y n) s =
      .next (s.raise (.invalidMemoryAccess (BitVec.ofNat 17 (max s.i.toNat 4096)) .read)) := by
  have hpast : Config.memSize < s.i.toNat + n.toNat := Nat.lt_of_le_pred (by omega) hexceeds
  rw [exec, execDrw, rangeFault_of_exceeds (Nat.pos_of_ne_zero hrows) hpast, State.orRaise_some]

end

/-! ### What a draw writes -/

/-- VF after a draw is the collision the sprite loops noted. -/
theorem State.getV_vF_drawSprite_advance (s : State) (ox oy : Nat) (rows : List Byte) :
    (s.drawSprite ox oy rows).advance.getV 15 = flagByte (blitRows ox oy rows (s.fb, false)).2 :=
  (s.getV_drawSprite ox oy rows 15).trans (if_pos rfl)

/-- What a draw does whatever the sprite is: all but the pixels and VF. -/
theorem State.drawSprite_advance_only (s : State) (ox oy : Nat) (rows : List Byte) :
    (∀ r, r ≠ 15 → (s.drawSprite ox oy rows).advance.getV r = s.getV r) ∧
      (s.drawSprite ox oy rows).advance.presentRequests = s.presentRequests + 1 ∧
      (s.drawSprite ox oy rows).advance.pc = u16 (s.pc.toNat + 2) ∧
      (s.drawSprite ox oy rows).advance.unchangedExcept s [.fb, .v, .presentRequests, .pc] :=
  ⟨fun r hr => (s.getV_drawSprite ox oy rows r).trans (if_neg hr.symm), rfl, State.advance_pc_eq_u16 _,
    (State.unchangedExcept.refl s _).drawSprite.advance⟩

/-- Settles O45: the two sides of the range check of the n rows; the pixels and the collision are those of
`toggles_drawSprite`, because 15 rows at most fit the framebuffer. -/
theorem drwDrawsTheSprite : Obligations.DrwDrawsTheSprite := by
  refine ⟨fun x y n => decode_of_eq_encode rfl (u16_eq_packXYN 0xD x y n rfl),
    fun x y n s => ⟨fun hfits => ?_, fun ⟨hrows, hexceeds⟩ => exec_drw_of_exceeds hrows hexceeds⟩⟩
  have hheight : n.toNat ≤ Config.fbH := n.isLt.le.trans (by decide)
  obtain ⟨hinside, houtside, hcollision⟩ :=
    toggles_drawSprite s.mem s.i.toNat (s.getV x).toNat (s.getV y).toNat n.toNat hheight (s.fb, false)
  refine ⟨_, exec_drw_of_fits hfits, fun px py => ⟨hinside px py, houtside px py⟩, fun hlit => ?_, fun hunlit => ?_,
    s.drawSprite_advance_only _ _ _⟩
  · rw [State.getV_vF_drawSprite_advance, hcollision.mpr (.inr hlit)]
    rfl
  · have hnone := Bool.eq_false_iff.mpr fun h => hunlit ((hcollision.mp h).resolve_left Bool.false_ne_true)
    rw [State.getV_vF_drawSprite_advance, hnone]
    rfl

/-! ### Drawing twice -/

/-- The destinations of a sprite depend on what memory reads as. -/
theorem spriteSets_congr {m m' : Memory} (h : ∀ a, m.read a = m'.read a) : spriteSets m = spriteSets m' := by
  unfold spriteSets
  simp only [h]

/-- The destination of bit k of row r, counted from the least significant bit. -/
theorem spriteSets_wrap {m : Memory} {i n r k : Nat} (ox oy : Nat) (hr : r < n) (hk : k < 8)
    (hbit : (m.read (i + r)).getLsbD k = true) :
    spriteSets m i ox oy n (wrapColumn (ox + (7 - k))) (wrapRow (oy + r)) :=
  ⟨7 - k, r, by omega, hr, rfl, rfl, by rwa [Nat.sub_sub_self (Nat.le_of_lt_succ hk)]⟩

/-- Settles O46: both draws invert the same pixels, so each pixel is inverted twice or never; a pixel of the sprite that
was 0 before the first draw is 1 at the second. -/
theorem secondDrawRestoresTheFramebuffer : Obligations.SecondDrawRestoresTheFramebuffer := by
  obtain ⟨-, hdraw⟩ := drwDrawsTheSprite
  intro x y n s hfits
  obtain ⟨t, hexec, hfirst, -⟩ := (hdraw x y n s).1 hfits
  refine ⟨t, hexec, fun u hfb hi hmem hx hy => ?_⟩
  obtain ⟨w, hexec', hsecond, hcollides, -⟩ := (hdraw x y n u).1 (hi.symm ▸ hfits)
  rw [spriteSets_congr hmem, hi, hx, hy, hfb] at hsecond hcollides
  refine ⟨w, hexec', Framebuffer.ext fun px py => ?_, ?_⟩
  · by_cases hset : spriteSets s.mem s.i.toNat (s.getV x).toNat (s.getV y).toNat n.toNat px py
    · rw [(hsecond px py).1 hset, (hfirst px py).1 hset, Bool.not_not]
    · rw [(hsecond px py).2 hset, (hfirst px py).2 hset]
  · rintro ⟨r, k, hr, hk, hbit, hunlit⟩
    have hset := spriteSets_wrap (s.getV x).toNat (s.getV y).toNat hr hk hbit
    refine hcollides ⟨_, _, hset, ?_⟩
    rw [(hfirst _ _).1 hset, hunlit, Bool.not_false]

end Sys2Proof.Machine
end

section
/-! SUPPORT. The key skips, the timer access and the key-wait (spec/44_keys_timers.md R96-R102): their words, the two
sides of the key-index check, and the two ends of the key-wait, alone and as the first instruction of a batch. -/

namespace Sys2Proof

/-- The words of class 0xE, by the formula of the opcode table. -/
theorem u16_eq_packXNN_classE (x : Reg) (nn : Byte) : u16 (0xE000 + nn.toNat + 256 * x.val) = packXNN 0xE x nn :=
  u16_eq_packXNN 0xE x nn (by simp; omega)

end Sys2Proof

namespace Sys2Proof.Machine

/-! ### Key skips -/

theorem State.orRaise_keyIndexFault_of_key {s s' : State} {k : Byte} (h : k.toNat ≤ 15) :
    s.orRaise (keyIndexFault k) s' = s' := by
  rw [keyIndexFault_eq, if_neg (Nat.not_lt.mpr h), State.orRaise_none]

theorem State.orRaise_keyIndexFault_of_exceeds {s s' : State} {k : Byte} (h : 15 < k.toNat) :
    s.orRaise (keyIndexFault k) s' = s.raise (.keyIndexOutOfRange k) := by
  rw [keyIndexFault_eq, if_pos h, State.orRaise_some]

/-- Settles O47: the two sides of the key-index check; within it both instructions end in a skip on the level of the key
bit. -/
theorem keySkipsTestTheKey : Obligations.KeySkipsTestTheKey := by
  refine ⟨fun x => ⟨decode_of_eq_encode rfl (u16_eq_packXNN_classE x 0x9E),
      decode_of_eq_encode rfl (u16_eq_packXNN_classE x 0xA1)⟩, fun x s => ⟨fun hkey => ?_, fun hexceeds => ?_⟩⟩
  · simp only [exec, execSkp, execSknp, State.orRaise_keyIndexFault_of_key hkey]
    exact ⟨⟨_, rfl, s.skipIf_only Iff.rfl⟩, ⟨_, rfl, s.skipIf_only (.of_eq (Bool.not_eq_true' _))⟩⟩
  · simp only [exec, execSkp, execSknp, State.orRaise_keyIndexFault_of_exceeds hexceeds]
    exact ⟨rfl, rfl⟩

/-! ### Timer access -/

/-- Settles O48: the result is DT, which is read and not written. -/
theorem ldVxDtReadsTheTimer : Obligations.LdVxDtReadsTheTimer :=
  ⟨fun x => decode_of_eq_encode rfl (u16_eq_packXNN_classF x 0x07),
    fun x s => ⟨_, rfl, s.setV_advance_only x s.dt⟩⟩

/-- Settles O49: each meaning has one operation besides the default advance, a write of its own timer. -/
theorem timerWritesSetOneTimer : Obligations.TimerWritesSetOneTimer :=
  ⟨fun x => ⟨decode_of_eq_encode rfl (u16_eq_packXNN_classF x 0x15),
      decode_of_eq_encode rfl (u16_eq_packXNN_classF x 0x18)⟩,
    fun _ s => ⟨
      ⟨_, rfl, rfl, State.advance_pc_eq_u16 _, (State.unchangedExcept.refl s _).setDT.advance⟩,
      ⟨_, rfl, rfl, State.advance_pc_eq_u16 _, (State.unchangedExcept.refl s _).setST.advance⟩⟩⟩

/-! ### The key-wait -/

theorem lowestKey_zero : lowestKey 0 = none := by decide

/-- With no key pressed the key-wait is Wait: the same state (R102, log 9). -/
theorem exec_ldVxK_of_no_key {x : Reg} {s : State} (h : s.keys = 0) : exec (.ldVxK x) s = .next s := by
  rw [exec, execLdVxK, h, lowestKey_zero]

/-- With a key pressed the key-wait takes the lowest one. -/
theorem exec_ldVxK_of_key {s : State} (h : s.keys ≠ 0) (x : Reg) :
    ∃ k, exec (.ldVxK x) s = .next (s.setV x (u8 k)).advance ∧ k < 16 ∧ s.keys.getLsbD k = true ∧
      ∀ j < k, s.keys.getLsbD j = false := by
  obtain ⟨-, hnone⟩ | ⟨k, hk, hlow, hpressed, hbelow⟩ := lowestKey_spec s.keys
  · exact absurd hnone h
  · refine ⟨k, ?_, hk, hpressed, hbelow⟩
    rw [exec, execLdVxK, hlow]

/-- A state waits when the two bytes at PC are a key-wait and no key is pressed. -/
theorem State.waits_of_bytes {x : Reg} {s : State} (hfault : s.fault = none) (hpc : s.pc.toNat + 1 < 4096)
    (hkeys : s.keys = 0)
    (hdecode : decode (u16 (256 * (s.mem.read s.pc.toNat).toNat + (s.mem.read (s.pc.toNat + 1)).toNat)) = .ldVxK x) :
    s.waits = true := by
  refine s.waits_iff.mpr ⟨hfault, s.fetchFault_eq_none.mpr (Nat.succ_le_of_lt hpc), ⟨x, ?_⟩, hkeys⟩
  rwa [State.fetchWord, wordOfBytes_eq_u16]

/-- A batch of any size on a waiting state ends before its first step (R112, R113). -/
theorem State.runBatch_of_waits {s : State} (h : s.waits = true) (size : Nat) (between : List (List HostEvent)) :
    s.runBatch (size + 1) between = { s with batch := ⟨.waiting, 0, true⟩ } := by
  simp [State.runBatch, batchFrom, State.hostEvents, h]

/-- Settles O50: the two ends of the key-wait; a batch stands still where the state waits. -/
theorem keyWaitTakesTheLowestKey : Obligations.KeyWaitTakesTheLowestKey := by
  refine ⟨fun x => decode_of_eq_encode rfl (u16_eq_packXNN_classF x 0x0A), fun x s => ⟨fun hkeys => ?_,
    exec_ldVxK_of_no_key⟩, fun x size between s hfault hpc hkeys hsize hdecode => ?_⟩
  · obtain ⟨k, hexec, hk, hpressed, hbelow⟩ := exec_ldVxK_of_key hkeys x
    obtain ⟨hregs, hrest⟩ := s.setV_advance_only x (u8 k)
    have hbyte : (u8 k).toNat = k := Nat.mod_eq_of_lt (hk.trans (by decide))
    refine ⟨_, k, hexec, hk, hpressed, hbelow, fun r => ?_, hrest⟩
    rw [hregs, apply_ite BitVec.toNat, hbyte]
  · obtain ⟨n, rfl⟩ := Nat.exists_eq_succ_of_ne_zero (Nat.one_le_iff_ne_zero.mp hsize)
    exact State.runBatch_of_waits (State.waits_of_bytes hfault hpc hkeys hdecode) n between

end Sys2Proof.Machine
end

section
/-! SUPPORT. The host's side of the CORE (spec/60_exceptions.md): the numbers of the faults (R104, R115), what a tick, a
key update and a present change (R110, R114, R118, R119), and how a batch ends (R112, R113). -/

namespace Sys2Proof.Machine

/-! ### The numbers of the faults -/

/-- Code 0 is no fault's code, so the port shows it only with nothing latched. -/
theorem FaultCause.code_ne_zero (c : FaultCause) : c.code ≠ 0 := by
  cases c <;> simp [FaultCause.code]

theorem State.faultCode_eq_zero_iff (s : State) : s.faultCode = 0 ↔ s.fault = none := by
  cases hfault : s.fault with
  | none => simp [State.faultCode, hfault]
  | some f => simpa [State.faultCode, hfault] using f.cause.code_ne_zero

/-- Settles O52: the table of R104, with SP and Vx both within the 17 bits of the information word. -/
theorem faultCodesAsNumbered : Obligations.FaultCodesAsNumbered :=
  ⟨fun _ _ => ⟨rfl, rfl, rfl⟩, rfl, rfl, rfl,
    fun sp => ⟨rfl, Nat.mod_eq_of_lt (sp.isLt.trans (by decide))⟩, ⟨rfl, rfl⟩,
    fun k => ⟨rfl, BitVec.toNat_setWidth_of_le (by decide)⟩, State.faultCode_eq_zero_iff⟩

/-! ### Events outside a batch -/

section
variable {s t : State} {may : List Part} (h : t.unchangedExcept s may)
include h

theorem State.unchangedExcept.withHostMoves {ms : List HostMove} (hmoves : Part.hostMoves ∈ may := by simp) :
    { t with hostMoves := ms }.unchangedExcept s may :=
  { h with hostMoves := (absurd hmoves ·) }

theorem State.unchangedExcept.withKeys {k : Word} (hkeys : Part.keys ∈ may := by simp) :
    { t with keys := k }.unchangedExcept s may :=
  { h with keys := (absurd hkeys ·) }

theorem State.unchangedExcept.tick (hdt : Part.dt ∈ may := by simp) (hst : Part.st ∈ may := by simp) :
    t.tick.unchangedExcept s may :=
  { h with dt := (absurd hdt ·), st := (absurd hst ·) }

end

/-- Settles O14: the move is taken off the list, and both timers count down. -/
theorem tickCountsDown : Obligations.TickCountsDown := fun s _ hmoves =>
  ⟨_, step_of_move hmoves, toNat_countDown s.dt, toNat_countDown s.st, rfl,
    (State.unchangedExcept.refl s _).withHostMoves.tick⟩

/-- Settles O16: the move is taken off the list; a key update also writes KEYS, a present nothing. -/
theorem keyUpdateAndPresentTouchNothingElse : Obligations.KeyUpdateAndPresentTouchNothingElse := fun s _ =>
  ⟨fun _ hmoves => ⟨_, step_of_move hmoves, rfl, rfl, (State.unchangedExcept.refl s _).withHostMoves.withKeys⟩,
    fun hmoves => ⟨_, step_of_move hmoves, rfl, (State.unchangedExcept.refl s _).withHostMoves⟩⟩

/-! ### One step of a batch -/

/-- The step from `u` ends a batch uncounted, with this reason and in the state `t` (R112, R113). -/
inductive StepEndsBatch (u : State) : BatchReason → State → Prop
  | waiting : u.waits = true → StepEndsBatch u .waiting u
  | faulted {t : State} : u.waits = false → instrStep u = .next t → t.fault ≠ none → StepEndsBatch u .faulted t

/-- Without a latched fault a step completes, or it ends the batch. -/
theorem instrStep_completes_or_endsBatch {u : State} (hfault : u.fault = none) :
    (u.waits = false ∧ ∃ t, instrStep u = .next t ∧ t.fault = none) ∨ ∃ reason t, StepEndsBatch u reason t := by
  cases hwaits : u.waits with
  | true => exact .inr ⟨_, _, .waiting hwaits⟩
  | false =>
    obtain ⟨t, hstep⟩ := instrStep_total hfault
    by_cases hdone : t.fault = none
    · exact .inl ⟨rfl, t, hstep, hdone⟩
    · exact .inr ⟨_, _, .faulted hwaits hstep hdone⟩

section
variable {before : List (List HostEvent)} {s t : State} (left done : Nat)

/-- A batch counts a completed step and goes on from there. -/
theorem batchFrom_of_completes (hwaits : (s.hostEvents (before.headD [])).waits = false)
    (hstep : instrStep (s.hostEvents (before.headD [])) = .next t) (hdone : t.fault = none) :
    batchFrom (left + 1) before done s = batchFrom left before.tail (done + 1) t := by
  simp only [batchFrom, hwaits, hstep, hdone, Option.isSome_none, Bool.false_eq_true, if_false]

theorem batchFrom_of_endsBatch {reason : BatchReason}
    (h : StepEndsBatch (s.hostEvents (before.headD [])) reason t) :
    batchFrom (left + 1) before done s = (t, ⟨reason, done, true⟩) := by
  cases h with
  | waiting hwaits => simp only [batchFrom, hwaits, if_true]
  | faulted hwaits hstep hfault =>
    simp only [batchFrom, hwaits, hstep, Option.isSome_iff_ne_none.mpr hfault, Bool.false_eq_true, if_false, if_true]

end

/-! ### A whole batch -/

/-- The host's events latch no fault. -/
theorem State.hostEvents_keeps_no_fault {s : State} (es : List HostEvent) (h : s.fault = none) :
    (s.hostEvents es).fault = none :=
  hostEvents_keeps (P := fun t => t.fault = none) (fun _ h => h) (fun _ _ => rfl) (fun _ _ h => h) es s h

/-- An instruction step leaves the host's coming moves alone. -/
theorem instrStep_keeps_hostMoves {s t : State} (h : instrStep s = .next t) : t.hostMoves = s.hostMoves := by
  obtain ⟨-, ⟨c, -, rfl⟩ | ⟨-, hexec⟩⟩ := instrStep_cases h
  · rfl
  · refine (eachInstructionWritesOnlyItsParts _ s t hexec).hostMoves ?_
    cases decode s.fetchWord <;> simp [mayWrite]

theorem State.runBatch_hostMoves (size : Nat) (between : List (List HostEvent)) (s : State) :
    (s.runBatch size between).hostMoves = s.hostMoves :=
  batchFrom_keeps (P := fun t => t.hostMoves = s.hostMoves) (fun _ _ hs h => (instrStep_keeps_hostMoves h).trans hs)
    (hostEvents_keeps (fun _ h => h) (fun _ h => h) (fun _ _ h => h)) size ([] :: between) 0 s rfl

/-- HOW A BATCH ENDS: after k completed steps either none is left to do, or the next step ends it. -/
theorem batchFrom_ends (left : Nat) (before : List (List HostEvent)) (done : Nat) {s : State} (h : s.fault = none) :
    ∃ k u, completedSteps k before s u ∧
      ((k = left ∧ batchFrom left before done s = (u, ⟨.done, done + k, true⟩)) ∨
        (k < left ∧ ∃ reason t, StepEndsBatch (u.hostEvents (before.getD k [])) reason t ∧
          batchFrom left before done s = (t, ⟨reason, done + k, true⟩))) := by
  induction left generalizing before done s with
  | zero => exact ⟨0, s, rfl, .inl ⟨rfl, rfl⟩⟩
  | succ left ih =>
    have hhead : before.headD [] = before.getD 0 [] := by cases before <;> rfl
    obtain ⟨hwaits, t, hstep, hdone⟩ | ⟨reason, t, hends⟩ :=
      instrStep_completes_or_endsBatch (s.hostEvents_keeps_no_fault (before.headD []) h)
    · have htail (k : Nat) : before.tail.getD k [] = before.getD (k + 1) [] := by cases before <;> rfl
      obtain ⟨k, u, hsteps, hend⟩ := ih before.tail (done + 1) hdone
      rw [← batchFrom_of_completes left done hwaits hstep hdone, htail, Nat.add_right_comm] at hend
      refine ⟨k + 1, u, ⟨hwaits, t, hstep, hdone, hsteps⟩, hend.imp ?_ ?_⟩
      · exact And.imp_left (congrArg Nat.succ)
      · exact And.imp_left Nat.succ_lt_succ
    · exact ⟨0, s, rfl, .inr ⟨left.succ_pos, reason, t, hhead ▸ hends, batchFrom_of_endsBatch left done hends⟩⟩

/-- The result of a batch stands on the batch ports of its last state. -/
theorem State.runBatch_of_batchFrom {size : Nat} {between : List (List HostEvent)} {s t : State} {ports : BatchPorts}
    (h : batchFrom size ([] :: between) 0 s = (t, ports)) : s.runBatch size between = { t with batch := ports } := by
  rw [State.runBatch, h]

/-- Settles O17: the host's move runs a batch of BATCH_SIZE; a batch of any size ends as `batchFrom_ends` says, or on a
faulted CORE before its first step. -/
theorem batchRunsCompletedSteps : Obligations.BatchRunsCompletedSteps := by
  refine ⟨⟨Config.batchSize, Nat.succ_pos _, fun s between rest hmoves => step_of_move hmoves⟩,
    fun size between s hsize => ⟨s.runBatch_hostMoves size between, fun hfault => ?_, fun hfault => ?_⟩⟩
  · obtain ⟨f, hf⟩ := Option.ne_none_iff_exists'.mp hfault
    obtain ⟨n, rfl⟩ := Nat.exists_eq_succ_of_ne_zero (Nat.one_le_iff_ne_zero.mp hsize)
    exact State.runBatch_of_fault hf n between
  · obtain ⟨k, u, hsteps, ⟨hk, hbatch⟩ | ⟨hk, reason, t, hends, hbatch⟩⟩ :=
      batchFrom_ends size ([] :: between) 0 hfault
    all_goals
      rw [Nat.zero_add] at hbatch
      have hrun := State.runBatch_of_batchFrom hbatch
      refine ⟨k, u, hsteps, by rw [hrun], ?_⟩
    · exact .inl ⟨hk, hrun⟩
    · refine .inr ⟨hk, _, rfl, ?_⟩
      cases hends with
      | waiting hwaits => exact .inl ⟨hwaits, hrun⟩
      | faulted hwaits hstep hlatched => exact .inr ⟨hwaits, t, hstep, hlatched, hrun⟩

end Sys2Proof.Machine
end

section
/-! SUPPORT. Reset as a move of the host (spec/70_reset_and_hazards.md R125): the values it sets and its frame. -/

namespace Sys2Proof.Machine

/-- The parts of the state that reset sets (R125). -/
def resetParts : List Part := [.v, .i, .pc, .sp, .stack, .dt, .st, .fault]

theorem State.unchangedExcept.hostReset {s t : State} {may : List Part} (h : t.unchangedExcept s may)
    (hparts : resetParts ⊆ may := by simp [resetParts]) : t.hostReset.unchangedExcept s may := by
  simp only [resetParts, List.cons_subset] at hparts
  obtain ⟨hv, hi, hpc, hsp, hstack, hdt, hst, hfault, -⟩ := hparts
  exact { h with
    v := (absurd hv ·), i := (absurd hi ·), pc := (absurd hpc ·), sp := (absurd hsp ·), stack := (absurd hstack ·),
    dt := (absurd hdt ·), st := (absurd hst ·), fault := (absurd hfault ·) }

theorem State.hostReset_stack_getElem (s : State) (k : Fin 16) : s.hostReset.stack[k.val] = 0 := by
  simp

/-- Settles O12: the move is taken off the list, and `hostReset` sets `resetParts` and nothing else. -/
theorem resetSetsEveryRegister : Obligations.ResetSetsEveryRegister := fun s _ hmoves =>
  ⟨_, step_of_move hmoves, State.getV_hostReset _, rfl, rfl, rfl, State.hostReset_stack_getElem _, rfl, rfl, rfl, rfl,
    (State.unchangedExcept.refl s _).withHostMoves.hostReset⟩

end Sys2Proof.Machine
end
